-- ==== Sys2Proof/Word.lean ====
section
/-! DEFINITION. The word types of the frame formats (00_scope.md R7: every integer is unsigned, bit 0 is the least
significant bit) and the one fixed-size array the spec uses, five like fields (R62, R63). -/

namespace Sys2Proof

/-- A byte of the stream, 0 to 255 (R7). -/
abbrev Byte := BitVec 8

/-- A 16-bit value: a checksum or a joystick field (R62 to R64, R75). -/
abbrev Bits16 := BitVec 16

/-- A 32-bit pattern: a tick, a gain, a status register, the error counter (R136, R24). -/
abbrev Bits32 := BitVec 32

/-- A 64-bit pattern: a ControlStatus double, never interpreted (R134). -/
abbrev Bits64 := BitVec 64

/-- A subscriber identifier, 8-bit unsigned (R6, D9). -/
abbrev SubId := BitVec 8

/-- Five like fields in index order: `reserved[0..4]` of ControlStatus, `gains[0..4]` of GainsAck (R136). -/
structure Five (α : Type) where
  at0 : α
  at1 : α
  at2 : α
  at3 : α
  at4 : α
  deriving DecidableEq, Repr

/-- The five fields as a list, index 0 first. -/
def Five.toList {α : Type} (v : Five α) : List α := [v.at0, v.at1, v.at2, v.at3, v.at4]

end Sys2Proof
end

