-- ==== Sys2Proof/Config.lean ====
section
/-! DEFINITION. The implementation parameters of 00_scope.md R6 with this hardware's values, the configuration
`KIND_TABLE` (30_encoding.md R61), and the one free value of the model: the outcome of a delivery (R156). -/

namespace Sys2Proof

/-- The inbound frame kinds (R6 `KINDS`). -/
inductive Kind where
  | cs  -- ControlStatus
  | ga  -- GainsAck
  | ra  -- ResetAck
  deriving DecidableEq, Repr, Inhabited

/-- How a subscriber completes one delivery (43_dispatcher.md R156). -/
inductive SubOutcome where
  | ok     -- the delivery completes
  | fault  -- the subscriber throws: isolated, the publish goes on
  | hang   -- it never completes: the PUSH_BYTE is stuck (R157)
  deriving DecidableEq, Repr, Inhabited

namespace Config

/-- One row of `KIND_TABLE`: the magic in stream order, the prefix width, the frame length, the kind code. -/
structure KindRow where
  magic0 : Byte
  magic1 : Byte
  pfx    : Nat
  len    : Nat
  kcode  : BitVec 2
  deriving DecidableEq, Repr

/-- `KIND_TABLE` (R61), fixed for the life of the block (R52). The decoder, the encoders, the opcode table and the
magic search take the magics, the prefix widths and the lengths from here alone, so that a corrected table can be put in
its place (R6, log entry 15). -/
def kindTable : Kind → KindRow
  | .cs => { magic0 := 0xAA, magic1 := 0xCC, pfx := 4, len := 74, kcode := 0 }
  | .ga => { magic0 := 0xAA, magic1 := 0xDD, pfx := 2, len := 24, kcode := 1 }
  | .ra => { magic0 := 0xAA, magic1 := 0xEE, pfx := 2, len := 5, kcode := 2 }

/-- `ACC_CAP`, the accumulator's capacity in bytes: the largest length (R6, D4), 74. No operation can exceed it
(R118). -/
def accCap : Nat := max (kindTable .cs).len (max (kindTable .ga).len (kindTable .ra).len)

/-- `CK_MOD`, the modulus of every checksum but the joystick packet's (R6, R67). -/
def ckMod : Nat := 65536

/-- The modulus of the outbound joystick packet's checksum (R75, R78). -/
def joystickCkMod : Nat := 65535

/-- `N_SUB`, subscriber entries per kind (R6, D7). -/
def nSub : Nat := 8

/-- FREE VALUE (log entry 4): the outcome of the `n`-th delivery where no test script sets it. The spec fixes nothing
about it ("claims must hold for every draw", R156), so it has no body and nothing can be proved of its value. -/
opaque freeOutcome (n : Nat) : SubOutcome

end Config

/-- `KINDS` (R6). -/
def Kind.all : List Kind := [.cs, .ga, .ra]

/-- `MAGIC[k]` in stream order (R61). -/
def Kind.magic (k : Kind) : List (BitVec 8) := [(Config.kindTable k).magic0, (Config.kindTable k).magic1]

/-- `PFX[k]` (R61). -/
def Kind.pfx (k : Kind) : Nat := (Config.kindTable k).pfx

/-- The width of the fields a kind's layout gives its payload (R62 to R64), which R61 lists as the payload bytes. -/
def Kind.fieldBytes : Kind → Nat
  | .cs => 68
  | .ga => 20
  | .ra => 1

/-- `LEN[k]` (R61). -/
def Kind.len (k : Kind) : Nat := (Config.kindTable k).len

/-- How many bytes of a kind's prefix follow the magic (R60): the two unparsed bytes of a ControlStatus, none of the
other kinds (R61). -/
def Kind.preBytes (k : Kind) : Nat := k.pfx - 2

/-- How many bytes of a frame stand between the fields of the layout and the trailer: none under R61. -/
def Kind.postBytes (k : Kind) : Nat := k.len - k.pfx - k.fieldBytes - 2

/-- `KCODE[k]` (R61). -/
def Kind.kcode (k : Kind) : BitVec 2 := (Config.kindTable k).kcode

end Sys2Proof
end

