-- ==== Sys2Proof/Syntax.lean ====
section
/-! DEFINITION. The values a frame carries (42_packet_decode.md R136) and the instructions: one constructor per row of
spec/opcode_table.json. A frame plays the part of an instruction: the magic is its opcode, the kind fixes its length and
the fields are its operands (30_encoding.md, opening). -/

namespace Sys2Proof

/-- A decoded ControlStatus payload (R131, R136). -/
structure Sample where
  tick     : Bits32
  degree   : Bits64
  cmX      : Bits64
  setspeed : Bits64
  reserved : Five Bits64
  deriving DecidableEq, Repr

/-- A decoded GainsAck payload (R132, R136). -/
structure Gains where
  gains : Five Bits32
  deriving DecidableEq, Repr

/-- The value a delivery carries: a Sample, the Gains or a Status byte (R136). -/
inductive Value where
  | sample (s : Sample)
  | gains (g : Gains)
  | status (b : Byte)
  deriving DecidableEq, Repr

/-- Exactly `n` bytes. -/
structure Bytes (n : Nat) where
  list : List Byte
  length_eq : list.length = n
  deriving DecidableEq, Repr

/-- The fields of a frame of kind `k` with the bytes around them that no field reads: the rest of the prefix, and what the
kind's length leaves before the trailer. Their numbers are the kind table's, so that a frame is `LEN[k]` bytes whatever
table stands there (log entry 15); for a GainsAck and a ResetAck there are none under R61. -/
structure Framed (k : Kind) (α : Type) where
  pre    : Bytes k.preBytes
  fields : α
  post   : Bytes k.postBytes
  deriving DecidableEq, Repr

/-- A packet as its bytes read, the checksum trailer `ck` as received. The first three are the inbound kinds the
decoder recognises; the last three are the outbound reference packets, garbage on the receive stream (R79). -/
inductive Instr where
  /-- ControlStatus (R62): the unparsed bytes (u0 and u1, and none after the Sample), the Sample, the trailer. -/
  | cs (pre : Bytes Kind.cs.preBytes) (post : Bytes Kind.cs.postBytes) (sample : Sample) (ck : Bits16)
  /-- GainsAck (R63): the gains and the trailer. -/
  | ga (gains : Framed .ga Gains) (ck : Bits16)
  /-- ResetAck (R64): the status byte and the trailer. -/
  | ra (status : Framed .ra Byte) (ck : Bits16)
  /-- JoystickState (R75): type 01. -/
  | joystickState (seq : Byte) (axX axY rotX rotY buttons : Bits16) (ck : Bits16)
  /-- SetGains (R76): type 02. -/
  | setGains (seq : Byte) (gains : Gains) (ck : Bits16)
  /-- Reset command (R77): type 03. It is data: it does not reset the PFDD. -/
  | resetCmd (seq : Byte) (ck : Bits16)
  deriving DecidableEq, Repr

/-- The inbound kind of an instruction, none for an outbound packet. -/
def Instr.kind : Instr → Option Kind
  | .cs _ _ _ _ => some .cs
  | .ga _ _ => some .ga
  | .ra _ _ => some .ra
  | .joystickState _ _ _ _ _ _ _ => none
  | .setGains _ _ _ => none
  | .resetCmd _ _ => none

/-- The value an inbound frame delivers (R131 to R133, R136); the unparsed bytes are not in it (R135). -/
def Instr.value : Instr → Option Value
  | .cs _ _ sample _ => some (.sample sample)
  | .ga gains _ => some (.gains gains.fields)
  | .ra status _ => some (.status status.fields)
  | .joystickState _ _ _ _ _ _ _ => none
  | .setGains _ _ _ => none
  | .resetCmd _ _ => none

/-- The trailer as received. -/
def Instr.ck : Instr → Bits16
  | .cs _ _ _ ck => ck
  | .ga _ ck => ck
  | .ra _ ck => ck
  | .joystickState _ _ _ _ _ _ ck => ck
  | .setGains _ _ ck => ck
  | .resetCmd _ ck => ck

/-- The same packet with another trailer. -/
def Instr.withCk (ck : Bits16) : Instr → Instr
  | .cs pre post sample _ => .cs pre post sample ck
  | .ga gains _ => .ga gains ck
  | .ra status _ => .ra status ck
  | .joystickState seq axX axY rotX rotY buttons _ => .joystickState seq axX axY rotX rotY buttons ck
  | .setGains seq gains _ => .setGains seq gains ck
  | .resetCmd seq _ => .resetCmd seq ck

end Sys2Proof
end

