-- ==== Sys2Proof/Decode.lean ====
section
/-! DEFINITION. Byte sequences and their little-endian reads (00_scope.md R8), the checksum (30_encoding.md R65 to R67),
magic recognition and search (R69, R100), the decoder of a packet from its bytes by the opcode table (R81) with its
named rejections, and, after it, the encoder (R62 to R64, R75 to R77) and the reference encoders (R137 to R139). -/

namespace Sys2Proof

/-! ## Byte sequences -/

/-- Byte `i` of a sequence, counting from 0 at the oldest. Used only where `i < |A|` (R22). -/
def byteAt (A : List Byte) (i : Nat) : Byte := A.getD i 0

/-- The unsigned value of a little-endian byte sequence: byte `i` weighs 2^(8 i) (R8, R41). -/
def leNat : List Byte → Nat
  | [] => 0
  | b :: bs => b.toNat + 256 * leNat bs

/-- The `n` low bytes of a value, least significant first (R8, R41). -/
def leBytes : Nat → Nat → List Byte
  | 0, _ => []
  | n + 1, v => BitVec.ofNat 8 v :: leBytes n (v / 256)

/-- `MemRead_F(off, n)` (R8). It is defined only where `off + n ≤ |F|`, and used only there. -/
def memRead (F : List Byte) (off n : Nat) : Nat := leNat ((F.drop off).take n)

/-- `MemWrite_F(off, n, v)`: the sequence with the `n` bytes from `off` set to `v` (R8). -/
def memWrite (F : List Byte) (off n v : Nat) : List Byte := F.take off ++ leBytes n v ++ F.drop (off + n)

/-- The sum of the bytes, each taken unsigned, to full precision (R67). -/
def byteSum : List Byte → Nat
  | [] => 0
  | b :: bs => b.toNat + byteSum bs

/-! ## The checksum -/

/-- The covered bytes of a packet: offsets 2 to `|F|` - 3, never the magic, never the trailer (R66; outbound R74). -/
def coveredBytes (F : List Byte) : List Byte := (F.drop 2).take (F.length - 4)

/-- `ck(F)`: the unsigned sum of the covered bytes mod `CK_MOD` (R67). -/
def ckOf (F : List Byte) : Bits16 := BitVec.ofNat 16 (byteSum (coveredBytes F) % Config.ckMod)

/-- The received trailer of a packet: its last two bytes, little-endian (R65). -/
def trailerOf (F : List Byte) : Bits16 := BitVec.ofNat 16 (memRead F (F.length - 2) 2)

/-! ## The magics -/

/-- The kind a second magic byte names (R69, R100): the second byte alone selects it. -/
def kindOf (b1 : Byte) : Option Kind := Kind.all.find? (fun k => (Config.kindTable k).magic1 == b1)

/-- The kind whose magic occurs at offset `i` of `A`, if one does (R69, R100 `isMagicAt`): the kind that the second byte
selects, where the first is that kind's first magic byte. -/
def magicAt (A : List Byte) (i : Nat) : Option Kind :=
  if i + 1 < A.length then
    (kindOf (byteAt A (i + 1))).filter (fun k => (Config.kindTable k).magic0 == byteAt A i)
  else none

/-- Whether a byte can be the first of a magic: `AA` under R61 (R102, R112). -/
def startsMagic (b : Byte) : Bool := Kind.all.any (fun k => (Config.kindTable k).magic0 == b)

/-- FIRST_MAGIC (R100): the least offset at which a magic occurs, with its kind; none where there is none. The smallest
offset wins whatever its kind (R101). -/
def firstMagic : List Byte → Option (Nat × Kind)
  | [] => none
  | [_] => none
  | b0 :: b1 :: rest =>
    match magicAt (b0 :: b1 :: rest) 0 with
    | some k => some (0, k)
    | none =>
      match firstMagic (b1 :: rest) with
      | some (p, k) => some (p + 1, k)
      | none => none

/-! ## The opcode table -/

/-- The formats of the opcode table, one per row. -/
inductive Format where
  | cs | ga | ra | joystickState | setGains | resetCmd
  deriving DecidableEq, Repr

/-- A row of spec/opcode_table.json: the decode word is the first `opBytes` bytes read in stream order, most
significant first (W16 or W24, R81); a row matches when `word & mask = pattern`. -/
structure OpRow where
  format  : Format
  opBytes : Nat
  mask    : Nat
  pattern : Nat
  length  : Nat
  deriving DecidableEq, Repr

/-- A byte sequence read with the FIRST byte most significant: the decode word's order, not a little-endian read (R42,
R81). -/
def streamWord (bs : List Byte) : Nat := leNat bs.reverse

/-- The format of an inbound kind. -/
def Kind.format : Kind → Format
  | .cs => .cs
  | .ga => .ga
  | .ra => .ra

/-- The row of an inbound kind (R81): its decode word is the kind's magic, its length the kind's. -/
def inboundRow (k : Kind) : OpRow :=
  { format := k.format, opBytes := 2, mask := 0xFFFF, pattern := streamWord k.magic, length := k.len }

/-- spec/opcode_table.json (R81): three inbound rows, three outbound reference rows. -/
def opTable : List OpRow :=
  [ inboundRow .cs,
    inboundRow .ga,
    inboundRow .ra,
    { format := .joystickState, opBytes := 3, mask := 0xFFFFFF, pattern := 0xAA5501, length := 16 },
    { format := .setGains, opBytes := 3, mask := 0xFFFFFF, pattern := 0xAA5502, length := 26 },
    { format := .resetCmd, opBytes := 3, mask := 0xFFFFFF, pattern := 0xAA5503, length := 6 } ]

/-- Whether a row matches the bytes at the head of a sequence. -/
def OpRow.selects (r : OpRow) (bs : List Byte) : Bool :=
  r.opBytes ≤ bs.length && (streamWord (bs.take r.opBytes) &&& r.mask == r.pattern)

/-- The row of the opcode table that matches, if one does. -/
def rowOf (bs : List Byte) : Option OpRow := opTable.find? (fun r => r.selects bs)

/-! ## Reading the fields -/

/-- Five 64-bit patterns, 8 bytes apart from `off`. -/
def read64x5 (F : List Byte) (off : Nat) : Five Bits64 :=
  { at0 := BitVec.ofNat 64 (memRead F off 8), at1 := BitVec.ofNat 64 (memRead F (off + 8) 8),
    at2 := BitVec.ofNat 64 (memRead F (off + 16) 8), at3 := BitVec.ofNat 64 (memRead F (off + 24) 8),
    at4 := BitVec.ofNat 64 (memRead F (off + 32) 8) }

/-- Five 32-bit patterns, 4 bytes apart from `off`. -/
def read32x5 (F : List Byte) (off : Nat) : Five Bits32 :=
  { at0 := BitVec.ofNat 32 (memRead F off 4), at1 := BitVec.ofNat 32 (memRead F (off + 4) 4),
    at2 := BitVec.ofNat 32 (memRead F (off + 8) 4), at3 := BitVec.ofNat 32 (memRead F (off + 12) 4),
    at4 := BitVec.ofNat 32 (memRead F (off + 16) 4) }

/-- `Decode_CS` (R131): the payload begins after the prefix (R60), so with `PFX` = 4 tick is at 4, degree at 8, cmX at
16, setspeed at 24, reserved[i] at 32 + 8 i. -/
def decodeCs (F : List Byte) : Sample :=
  { tick := BitVec.ofNat 32 (memRead F Kind.cs.pfx 4), degree := BitVec.ofNat 64 (memRead F (Kind.cs.pfx + 4) 8),
    cmX := BitVec.ofNat 64 (memRead F (Kind.cs.pfx + 12) 8),
    setspeed := BitVec.ofNat 64 (memRead F (Kind.cs.pfx + 20) 8), reserved := read64x5 F (Kind.cs.pfx + 28) }

/-- `Decode_GA` (R132): with `PFX` = 2, gains[i] at 2 + 4 i. -/
def decodeGa (F : List Byte) : Gains := { gains := read32x5 F Kind.ga.pfx }

/-- `Decode_RA` (R133): with `PFX` = 2, the byte at offset 2. -/
def decodeRa (F : List Byte) : Byte := byteAt F Kind.ra.pfx

/-- The `n` bytes from an offset on. -/
def bytesFrom (F : List Byte) (off n : Nat) : List Byte := (List.range n).map (fun i => byteAt F (off + i))

/-- The bytes of a candidate between its magic and its fields, the rest of the prefix (R60, R135). -/
def preOf (k : Kind) (F : List Byte) : Bytes k.preBytes :=
  { list := bytesFrom F 2 k.preBytes, length_eq := by simp [bytesFrom] }

/-- The bytes of a candidate between its fields and its trailer. -/
def postOf (k : Kind) (F : List Byte) : Bytes k.postBytes :=
  { list := bytesFrom F (k.pfx + k.fieldBytes) k.postBytes, length_eq := by simp [bytesFrom] }

/-- The fields read from a candidate, with the bytes around them. -/
def framedOf (k : Kind) (F : List Byte) {α : Type} (fields : α) : Framed k α :=
  { pre := preOf k F, fields := fields, post := postOf k F }

/-- A 16-bit little-endian field. -/
def read16 (F : List Byte) (off : Nat) : Bits16 := BitVec.ofNat 16 (memRead F off 2)

/-- The packet of a given format in exactly its bytes (R62 to R64, R75 to R77). -/
def readPacket (f : Format) (F : List Byte) : Instr :=
  match f with
  | .cs => .cs (preOf .cs F) (postOf .cs F) (decodeCs F) (trailerOf F)
  | .ga => .ga (framedOf .ga F (decodeGa F)) (trailerOf F)
  | .ra => .ra (framedOf .ra F (decodeRa F)) (trailerOf F)
  | .joystickState =>
    .joystickState (byteAt F 3) (read16 F 4) (read16 F 6) (read16 F 8) (read16 F 10) (read16 F 12) (trailerOf F)
  | .setGains => .setGains (byteAt F 3) { gains := read32x5 F 4 } (trailerOf F)
  | .resetCmd => .resetCmd (byteAt F 3) (trailerOf F)

/-- The candidate `F` of kind `k` as an instruction: what the decoder hands to the checksum check and the packet
decode (R105, R106, R108). -/
def frameInstr (k : Kind) (F : List Byte) : Instr := readPacket k.format F

/-! ## The decoder -/

/-- Why bytes are no packet. -/
inductive Reject where
  /-- Raised by `decode`: no row of the opcode table matches, whatever bytes follow (R70). -/
  | garbage
  /-- Raised by `decode`: too few bytes to tell the row, or fewer than the row's length (R71, R184). -/
  | truncated
  deriving DecidableEq, Repr

/-- The first bytes a row asks for, in stream order. -/
def OpRow.opcode (r : OpRow) : List Byte := (leBytes r.opBytes r.pattern).reverse

/-- Whether so few bytes are held that a row could still match: nothing, `AA`, or `AA 55`. -/
def undecided (bs : List Byte) : Bool :=
  opTable.any (fun r => bs.length < r.opBytes && bs == r.opcode.take bs.length)

/-- The decoder over the opcode table (R81, R71): the packet at the head of the bytes, with the bytes after it. Total;
what it rejects it rejects by name. A trailer that does not match its sum is no rejection: the checksum check is the
instruction's own (R106). -/
def decode (bs : List Byte) : Except Reject (Instr × List Byte) :=
  match rowOf bs with
  | some r =>
    if bs.length < r.length then .error .truncated
    else .ok (readPacket r.format (bs.take r.length), bs.drop r.length)
  | none => .error (if undecided bs then .truncated else .garbage)

/-! ## The encoder -/

/-- Five 64-bit patterns in index order. -/
def bytes64x5 (v : Five Bits64) : List Byte := v.toList.flatMap (fun x => leBytes 8 x.toNat)

/-- Five 32-bit patterns in index order. -/
def bytes32x5 (v : Five Bits32) : List Byte := v.toList.flatMap (fun x => leBytes 4 x.toNat)

/-- A Sample in wire order (R62). -/
def sampleBytes (s : Sample) : List Byte :=
  leBytes 4 s.tick.toNat ++ leBytes 8 s.degree.toNat ++ leBytes 8 s.cmX.toNat ++ leBytes 8 s.setspeed.toNat
    ++ bytes64x5 s.reserved

/-- An inbound frame before its trailer: the magic, the rest of the prefix, the payload (R60). -/
def inboundBody (k : Kind) (pre : Bytes k.preBytes) (fields : List Byte) (post : Bytes k.postBytes) : List Byte :=
  k.magic ++ pre.list ++ fields ++ post.list

/-- The bytes of a packet before its trailer (R62 to R64, R75 to R77). -/
def bodyBytes : Instr → List Byte
  | .cs pre post sample _ => inboundBody .cs pre (sampleBytes sample) post
  | .ga gains _ => inboundBody .ga gains.pre (bytes32x5 gains.fields.gains) gains.post
  | .ra status _ => inboundBody .ra status.pre [status.fields] status.post
  | .joystickState seq axX axY rotX rotY buttons _ =>
    [0xAA, 0x55, 0x01, seq] ++ leBytes 2 axX.toNat ++ leBytes 2 axY.toNat ++ leBytes 2 rotX.toNat
      ++ leBytes 2 rotY.toNat ++ leBytes 2 buttons.toNat
  | .setGains seq gains _ => [0xAA, 0x55, 0x02, seq] ++ bytes32x5 gains.gains
  | .resetCmd seq _ => [0xAA, 0x55, 0x03, seq]

/-- The bytes of a packet in stream order, its trailer last, little-endian (R60, R65, R74). -/
def encode (i : Instr) : List Byte := bodyBytes i ++ leBytes 2 i.ck.toNat

/-- The modulus of a packet's checksum: 65536, but 65535 for the joystick packet (R67, R75 to R78). -/
def Instr.ckModulus : Instr → Nat
  | .cs _ _ _ _ => Config.ckMod
  | .ga _ _ => Config.ckMod
  | .ra _ _ => Config.ckMod
  | .joystickState _ _ _ _ _ _ _ => Config.joystickCkMod
  | .setGains _ _ _ => Config.ckMod
  | .resetCmd _ _ => Config.ckMod

/-- The trailer the sender of a packet computes: the sum of the bytes between the magic and the trailer, mod the
packet's modulus (R66, R67, R74 to R77). -/
def Instr.senderCk (i : Instr) : Bits16 := BitVec.ofNat 16 (byteSum (coveredBytes (encode i)) % i.ckModulus)

/-- The packet with the trailer its sender computes. -/
def Instr.sealed (i : Instr) : Instr := i.withCk i.senderCk

/-- A frame of kind `k` whose fields and trailer are not yet written: the `LEN[k]` bytes the encoders begin with. -/
def blankFrame (k : Kind) (pre : Bytes k.preBytes) (post : Bytes k.postBytes) : List Byte :=
  inboundBody k pre (List.replicate k.fieldBytes 0) post ++ [0, 0]

/-- The last step of the encoders: the checksum into the trailer, at `LEN[k]` - 2 (R137, R138). -/
def withTrailer (k : Kind) (F : List Byte) : List Byte := memWrite F (k.len - 2) 2 (ckOf F).toNat

/-- ENC_CS, by the MemWrite steps of R137. -/
def encCs (pre : Bytes Kind.cs.preBytes) (post : Bytes Kind.cs.postBytes) (s : Sample) : List Byte :=
  let p := Kind.cs.pfx
  let F1 := memWrite (blankFrame .cs pre post) p 4 s.tick.toNat
  let F2 := memWrite (memWrite (memWrite F1 (p + 4) 8 s.degree.toNat) (p + 12) 8 s.cmX.toNat) (p + 20) 8 s.setspeed.toNat
  let F3 := memWrite (memWrite F2 (p + 28) 8 s.reserved.at0.toNat) (p + 36) 8 s.reserved.at1.toNat
  let F4 := memWrite (memWrite F3 (p + 44) 8 s.reserved.at2.toNat) (p + 52) 8 s.reserved.at3.toNat
  withTrailer .cs (memWrite F4 (p + 60) 8 s.reserved.at4.toNat)

/-- ENC_GA, by the MemWrite steps of R138. -/
def encGa (f : Framed .ga Gains) : List Byte :=
  let g := f.fields
  let p := Kind.ga.pfx
  let F1 := memWrite (memWrite (blankFrame .ga f.pre f.post) p 4 g.gains.at0.toNat) (p + 4) 4 g.gains.at1.toNat
  let F2 := memWrite (memWrite F1 (p + 8) 4 g.gains.at2.toNat) (p + 12) 4 g.gains.at3.toNat
  withTrailer .ga (memWrite F2 (p + 16) 4 g.gains.at4.toNat)

/-- ENC_RA, by the same steps; under R61 it is `AA EE st st 00` (R139). -/
def encRa (f : Framed .ra Byte) : List Byte :=
  withTrailer .ra (memWrite (blankFrame .ra f.pre f.post) Kind.ra.pfx 1 f.fields.toNat)

/-! ## Reading a word of the opcode table -/

/-- The bytes of an instruction whose bits are `w`, numbered as spec/opcode_table.json numbers them: the first word is
the decode word, W16 for an inbound row and W24 otherwise (R81), stored with its FIRST stream byte most significant;
every later byte `j` is bits `8 j + 7` to `8 j`. -/
def tableBytes (nbits w : Nat) : List Byte :=
  let opBytes :=
    if nbits ≤ 16 || Kind.all.any (fun k => streamWord k.magic == w % 65536) then 2 else 3
  (leBytes opBytes w).reverse ++ (leBytes (nbits / 8) w).drop opBytes

/-- The longest packet of the opcode table. -/
def longestPacket : Nat := (opTable.map OpRow.length).foldl max 0

/-- The same instruction at its whole length: zeros above the given bits, up to the row's length, or to the longest
instruction where no row matches. -/
def tableInstrBytes (nbits w : Nat) : List Byte :=
  let bs := tableBytes nbits w ++ List.replicate longestPacket (0 : Byte)
  match rowOf bs with
  | some r => bs.take r.length
  | none => bs.take longestPacket

/-- The instruction the decoder reads from the bits `w` of an opcode-table row. -/
def decodeTableWord (nbits w : Nat) : Option Instr :=
  match decode (tableInstrBytes nbits w) with
  | .ok (i, _) => some i
  | .error _ => none

end Sys2Proof
end

