-- ==== Sys2Proof/WellFormed.lean ====
section
/-! DEFINITION. Which packets are well-formed: those whose trailer is the one their sender computes. Every operand value
is admitted by its type (each field of R62 to R64 and R75 to R77 takes every bit pattern: 93_implementation_defined.md
I1, I2, I14), so the trailer is the one check a packet can fail. An ill-formed packet still decodes and still has a
meaning: a candidate of it is dropped (R107). -/

namespace Sys2Proof

/-- The trailer matches (R67 inbound and for SET_GAINS and RESET_CMD; R75 for the joystick packet). The spec's
"well-formed frame" (41_frame_decoder.md R117). -/
def Instr.wellFormed (i : Instr) : Bool := i.ck == i.senderCk

/-- The check as a proposition. -/
abbrev Instr.WellFormed (i : Instr) : Prop := i.wellFormed = true

end Sys2Proof
end

