-- ==== Sys2Proof/Machine/State.lean ====
section
/-! DEFINITION. The state of the PFDD as plain data: the record of 10_state.md R20, the trace of R27, the delivery of a
PUSH_BYTE that never completed (R157), and the model's own fields for what the outside offers and draws. State.reset is
the machine after power-on, which is a RESET (R32, R202). -/

namespace Sys2Proof.Machine

/-- `RUN` (R26). -/
inductive RunState where
  | stopped  -- after reset: no input is accepted
  | running  -- after START with the transport open
  | failed   -- after START with the transport not open; left only by RESET
  deriving DecidableEq, Repr

/-- `SUBTAB`: one bank of subscriber entries per kind, in registration order (R25, R31). -/
structure SubTab where
  cs : List SubId
  ga : List SubId
  ra : List SubId
  deriving DecidableEq, Repr

/-- Why a registration is refused (R152, R153, R181). -/
inductive SubReject where
  | full     -- the bank holds N_SUB entries
  | badKind  -- kind code 3 names no kind
  deriving DecidableEq, Repr

/-- The host operations a REFUSED event can name (R181). -/
inductive OpName where
  | pushByte
  | start
  | readReg
  deriving DecidableEq, Repr

/-- The events of the trace (R27). -/
inductive Event where
  | frameOk (kind : Kind) (value : Value)
  | deliver (kind : Kind) (index : Nat) (subId : SubId) (value : Value)
  | subFault (kind : Kind) (index : Nat) (subId : SubId)
  | crcDrop (kind : Kind) (received computed : Bits16)
  | subReject (kc : BitVec 2) (subId : SubId) (reason : SubReject)
  | started
  | startFailed
  | reset
  | refused (op : OpName)
  deriving DecidableEq, Repr

/-- A delivery as it stands on the dispatch port: `dlv_kind`, `dlv_index`, `dlv_subid`, `dlv_value` (R155). -/
structure Delivery where
  kind  : Kind
  index : Nat
  subId : SubId
  value : Value
  deriving DecidableEq, Repr

/-- What the outside can ask of the PFDD: the operations of R175, the bench's chunk (R92) and the bench's two lines
about outcomes (R80, log entry 4). -/
inductive HostOp where
  | pushByte (b : Byte)
  | pushChunk (c : List Byte)
  | start (transportOpen : Bool)
  | subscribe (kc : BitVec 2) (id : SubId)
  | readReg (n : Nat)
  | reset
  /-- `OUTCOME <subid> <OK|FAULT|HANG>` (R80). -/
  | setOutcome (id : SubId) (o : SubOutcome)
  /-- The start of a test script: every outcome is the script's default, OK, until an OUTCOME line changes it (R80). -/
  | scriptDefaults
  deriving DecidableEq, Repr

/-- What an operation returned to its caller (R151 OK or REJECTED, R173 a value or nothing). -/
inductive Answer where
  | accepted
  | rejected
  | value (v : Bits32)
  | nothing
  deriving DecidableEq, Repr

/-- Where the outcome of a delivery comes from (R156; log entry 4). -/
inductive Draws where
  /-- Every outcome is a free value. -/
  | free
  /-- A test script sets outcomes per subscriber, the latest setting first; a subscriber not listed completes with OK
  (R80). -/
  | scripted (set : List (SubId × SubOutcome))
  deriving DecidableEq, Repr

/-- The machine. The first four fields are the record of R20; `trace` is the observation of R27; `inFlight` is the
delivery a hung PUSH_BYTE waits on (R157, R91); the rest is the model's own (log entries 1, 2 and 4). -/
structure State where
  run       : RunState
  acc       : List Byte
  crcErrCnt : Bits32
  subtab    : SubTab
  trace     : List Event
  inFlight  : Option Delivery
  pending   : List (List HostOp)
  answer    : Option Answer
  draws     : Draws
  drawCount : Nat
  deriving DecidableEq, Repr

/-- Why the machine stops. -/
inductive Fault where
  /-- Raised by every step, and by every meaning, from a state in which a delivery hangs: the PUSH_BYTE that published
  the frame never completes and no step is enabled (R157, R9 (b)). Safe: the spec has no step there either. -/
  | deliveryHung
  deriving DecidableEq, Repr

/-- Why an instruction is not run. -/
inductive Refusal where
  /-- Raised by an arm of `exec` for an instruction that has no meaning yet; no arm uses it. Safe: the model stops where
  the hardware goes on. -/
  | notModelled (mnemonic : String)
  deriving DecidableEq, Repr

/-- Every bank empty (R32). -/
def SubTab.empty : SubTab := { cs := [], ga := [], ra := [] }

/-- The machine right after power-on, which is a RESET: the values of R32, and the trace of R202 (empty at power-on,
first event the RESET). Nothing is offered yet, nothing is answered, and the outcomes are free. -/
def State.reset : State :=
  { run := .stopped, acc := [], crcErrCnt := 0, subtab := SubTab.empty, trace := [.reset], inFlight := none,
    pending := [], answer := none, draws := .free, drawCount := 0 }

end Sys2Proof.Machine
end

