-- ==== Sys2Proof/Machine/Ops.lean ====
section
/-! DEFINITION. The named operations over State: emitting an event, the subscriber table's banks, the outcome draw, the
publish (R154), the drop (R107), the check that chooses between them (R106), and the codes of conditions and events
(R181). There are no traps to take and nothing to return from (R180, R193): a condition is its event. -/

namespace Sys2Proof.Machine

/-! ## The trace -/

/-- `emit`: append an event to the trace (R8). A raised condition is the event R181 gives it. -/
def emit (e : Event) (s : State) : State := { s with trace := s.trace ++ [e] }

/-! ## The subscriber table -/

/-- `SUBTAB[k]`: the kind selects the bank (R31, R161). -/
def SubTab.bank (t : SubTab) : Kind → List SubId
  | .cs => t.cs
  | .ga => t.ga
  | .ra => t.ra

/-- `SUBTAB[k] <- SUBTAB[k] ++ [id]` (R151). -/
def SubTab.append (t : SubTab) (k : Kind) (id : SubId) : SubTab :=
  match k with
  | .cs => { t with cs := t.cs ++ [id] }
  | .ga => { t with ga := t.ga ++ [id] }
  | .ra => { t with ra := t.ra ++ [id] }

/-- The kind with a given code; code 3 names none (R6, R153). -/
def kindOfCode (kc : BitVec 2) : Option Kind := Kind.all.find? (fun k => k.kcode == kc)

/-! ## Deliveries -/

/-- The script's setting for a subscriber, OK where it has none (R80). -/
def scriptedOutcome (set : List (SubId × SubOutcome)) (id : SubId) : SubOutcome :=
  match set with
  | [] => .ok
  | (id', o) :: rest => if id' = id then o else scriptedOutcome rest id

/-- `outcome(id)`: the draw of the delivery now on the port (R156). Free unless a script sets it. -/
def drawOutcome (s : State) (id : SubId) : SubOutcome :=
  match s.draws with
  | .free => Config.freeOutcome s.drawCount
  | .scripted set => scriptedOutcome set id

/-- A delivery is offered: its DELIVER event, and one draw made (R154, R155). -/
def offerDelivery (k : Kind) (j : Nat) (id : SubId) (v : Value) (s : State) : State :=
  { emit (.deliver k j id v) s with drawCount := s.drawCount + 1 }

/-- The deliveries of one value to the entries of a bank from index `j` on, one at a time (R154): OK goes on, FAULT is
recorded and goes on (R156), HANG leaves the delivery on the port for good (R157). -/
def deliverFrom (k : Kind) (v : Value) : Nat → List SubId → State → State
  | _, [], s => s
  | j, id :: rest, s =>
    match drawOutcome s id with
    | .ok => deliverFrom k v (j + 1) rest (offerDelivery k j id v s)
    | .fault => deliverFrom k v (j + 1) rest (emit (.subFault k j id) (offerDelivery k j id v s))
    | .hang => { offerDelivery k j id v s with inFlight := some { kind := k, index := j, subId := id, value := v } }

/-- PUBLISH(k, v) (R154): FRAME_OK, then one delivery per entry of the bank as it stands. -/
def publish (k : Kind) (v : Value) (s : State) : State :=
  deliverFrom k v 0 (s.subtab.bank k) (emit (.frameOk k v) s)

/-! ## The checksum's two ends -/

/-- CRC_DROP (R107): count the drop, wrapping at 2^32 (R24), and emit it. -/
def crcDrop (k : Kind) (received computed : Bits16) (s : State) : State :=
  emit (.crcDrop k received computed) { s with crcErrCnt := s.crcErrCnt + 1 }

/-- CHECK and its two continuations (R106 to R108): the candidate `F` of kind `k`, carrying the value `v`, is published
on a match and dropped otherwise. No step starts while a delivery hangs (R157). -/
def checkCandidate (k : Kind) (F : List Byte) (v : Value) (s : State) : Host.Outcome State Fault Refusal :=
  match s.inFlight with
  | some _ => .fault .deliveryHung
  | none =>
    if ckOf F = trailerOf F then .next (publish k v s)
    else .next (crcDrop k (trailerOf F) (ckOf F) s)

/-! ## Conditions and codes (60_exceptions.md R181) -/

/-- The conditions of R181. -/
inductive Condition where
  | noMagic            -- silent: raised by the attempt's NO_MAGIC stop (R102, R182)
  | crcMismatch        -- raised by CRC_DROP (R107, R183)
  | truncated          -- silent: raised by the attempt's WAIT stop (R104, R184)
  | transportOpenFail  -- raised by START with the transport not open (R171, R185)
  | sinkFailure        -- a sink's own: seen, if at all, as a subscriber's FAULT (R187)
  | subscriberFault    -- raised by a delivery that completes with FAULT (R156, R186)
  | subRejected        -- raised by SUBSCRIBE with code 3 or into a full bank (R152, R153, R188)
  | opRefused          -- raised by an operation that is not admitted (R175, R188)
  deriving DecidableEq, Repr

/-- Condition codes. -/
def Condition.code : Condition → Nat
  | .noMagic => 0x01
  | .crcMismatch => 0x02
  | .truncated => 0x03
  | .transportOpenFail => 0x04
  | .sinkFailure => 0x05
  | .subscriberFault => 0x06
  | .subRejected => 0x07
  | .opRefused => 0x08

/-- Event codes. -/
def Event.code : Event → Nat
  | .frameOk _ _ => 0x10
  | .deliver _ _ _ _ => 0x11
  | .subFault _ _ _ => 0x12
  | .crcDrop _ _ _ => 0x13
  | .subReject _ _ _ => 0x14
  | .started => 0x15
  | .startFailed => 0x16
  | .reset => 0x17
  | .refused _ => 0x18

/-- Reason codes of SUB_REJECT. -/
def SubReject.code : SubReject → Nat
  | .full => 0
  | .badKind => 1

/-- Operation codes of REFUSED. -/
def OpName.code : OpName → Nat
  | .pushByte => 0
  | .start => 1
  | .readReg => 2

/-- The condition an event records, none for an event that records no condition. A subscriber's FAULT records
SUBSCRIBER_FAULT whatever its cause (R187). -/
def Event.condition : Event → Option Condition
  | .frameOk _ _ => none
  | .deliver _ _ _ _ => none
  | .subFault _ _ _ => some .subscriberFault
  | .crcDrop _ _ _ => some .crcMismatch
  | .subReject _ _ _ => some .subRejected
  | .started => none
  | .startFailed => some .transportOpenFail
  | .reset => none
  | .refused _ => some .opRefused

/-- Whether a condition is fatal: the transport-open failure alone, until RESET (R181, R185). -/
def Condition.fatal : Condition → Bool
  | .transportOpenFail => true
  | .noMagic => false
  | .crcMismatch => false
  | .truncated => false
  | .sinkFailure => false
  | .subscriberFault => false
  | .subRejected => false
  | .opRefused => false

end Sys2Proof.Machine
end

