-- ==== Sys2Proof/Machine/Operands.lean ====
section
/-! DEFINITION. The operand forms of the decoder: what one attempt takes from the accumulator (41_frame_decoder.md R100
to R105), from the magic search to the candidate removed, with the reason where it stops. -/

namespace Sys2Proof.Machine

/-- What one attempt finds (R109, before the checksum check). -/
inductive Attempt where
  /-- STOP: the silent condition, and the accumulator kept (R102, R104). -/
  | stop (why : Condition) (acc : List Byte)
  /-- A candidate `F` of kind `k`, removed, and the accumulator left (R105). -/
  | candidate (k : Kind) (F rest : List Byte)
  deriving DecidableEq, Repr

/-- NO_MAGIC's retention: a final byte that can begin a magic (`AA`) is kept, everything else is discarded (R102, D3,
90_conflicts.md C1). -/
def retained (A : List Byte) : List Byte := A.getLast?.toList.filter startsMagic

/-- One attempt over the accumulator: FIRST_MAGIC R100, NO_MAGIC R102, RESYNC R103, WAIT R104, EXTRACT R105. -/
def attempt (A : List Byte) : Attempt :=
  match firstMagic A with
  | none => .stop .noMagic (retained A)
  | some (p, k) =>
    if (A.drop p).length < k.len then .stop .truncated (A.drop p)
    else .candidate k ((A.drop p).take k.len) ((A.drop p).drop k.len)

end Sys2Proof.Machine
end

