-- ==== Sys2Proof/Machine/Flags.lean ====
section
/-! DEFINITION. The derived status of the PFDD: it has no flags written as side effects (10_state.md R28). The decode
state DEC (R112), the handshake levels (R91, R155) and the three read-only status registers (R29, R173). -/

namespace Sys2Proof.Machine

/-- `DEC` (R112). -/
inductive Dec where
  | idle
  | gotAA
  | collect (k : Kind) (n : Nat)
  deriving DecidableEq, Repr

/-- `DEC` of an accumulator. On the three forms of R112 it is as the rule says; any other byte sequence, which no run
reaches, reads as `idle` (log entry 6). -/
def decOf (A : List Byte) : Dec :=
  match magicAt A 0 with
  | some k => .collect k A.length
  | none =>
    match A with
    | [b] => if startsMagic b then .gotAA else .idle
    | [] => .idle
    | _ :: _ :: _ => .idle

/-- `RUN` as register 1 shows it (R29). -/
def RunState.code : RunState → Nat
  | .stopped => 0
  | .running => 1
  | .failed => 2

/-- `DEC` as register 1 shows it (R29). -/
def Dec.code : Dec → Nat
  | .idle => 0
  | .gotAA => 1
  | .collect _ _ => 2

/-- `DEC_KIND`: the kind code while collecting, else 3 (R29). -/
def Dec.kindCode : Dec → Nat
  | .idle => 3
  | .gotAA => 3
  | .collect k _ => k.kcode.toNat

/-- Register 0, `CRC_ERR` (R29). -/
def regCrcErr (s : State) : Bits32 := s.crcErrCnt

/-- Register 1, `STATUS`: `ACC_LEN << 6 | DEC_KIND << 4 | DEC << 2 | RUN` (R29, R173). -/
def regStatus (s : State) : Bits32 :=
  (BitVec.ofNat 32 s.acc.length <<< 6) ||| (BitVec.ofNat 32 (decOf s.acc).kindCode <<< 4)
    ||| (BitVec.ofNat 32 (decOf s.acc).code <<< 2) ||| BitVec.ofNat 32 s.run.code

/-- Register 2, `SUBCNT`: the entries of each bank (R29, R173). -/
def regSubCnt (s : State) : Bits32 :=
  (BitVec.ofNat 32 s.subtab.ra.length <<< 8) ||| (BitVec.ofNat 32 s.subtab.ga.length <<< 4)
    ||| BitVec.ofNat 32 s.subtab.cs.length

/-- The value of status register `n`, none for a number above 2 (R173). -/
def statusReg (s : State) (n : Nat) : Option Bits32 :=
  match n with
  | 0 => some (regCrcErr s)
  | 1 => some (regStatus s)
  | 2 => some (regSubCnt s)
  | _ + 3 => none

/-- `in_ready` between steps: running, and no PUSH_BYTE in progress (R91). -/
def inReady (s : State) : Bool := s.run == .running && s.inFlight == none

/-- `dlv_valid` between steps: a delivery that has not completed stands on the port (R155, R157). -/
def dlvValid (s : State) : Bool := s.inFlight.isSome

end Sys2Proof.Machine
end

