-- ==== Sys2Proof/Machine/Inbound.lean ====
section
/-! DEFINITION. The meanings of the inbound frames CS, GA and RA (rows R131 to R133): what the PFDD does with a candidate
it has removed from the accumulator: the checksum check, then the publish of the decoded value or the drop (R106 to
R108). And the decoder's own call of them, by kind. -/

namespace Sys2Proof.Machine

/-- CS (R131): check the `LEN[CS]` bytes; publish the Sample, or drop. The unparsed bytes are summed and not delivered
(R135). -/
def execCs (pre : Bytes Kind.cs.preBytes) (post : Bytes Kind.cs.postBytes) (sample : Sample) (ck : Bits16) (s : State) :
    Host.Outcome State Fault Refusal :=
  checkCandidate .cs (encode (.cs pre post sample ck)) (.sample sample) s

/-- GA (R132): check the `LEN[GA]` bytes; publish the five gains, or drop. -/
def execGa (gains : Framed .ga Gains) (ck : Bits16) (s : State) : Host.Outcome State Fault Refusal :=
  checkCandidate .ga (encode (.ga gains ck)) (.gains gains.fields) s

/-- RA (R133): check the `LEN[RA]` bytes; publish the status byte, or drop. -/
def execRa (status : Framed .ra Byte) (ck : Bits16) (s : State) : Host.Outcome State Fault Refusal :=
  checkCandidate .ra (encode (.ra status ck)) (.status status.fields) s

/-- What the decoder does with a candidate `F` of kind `k`: the meaning of the frame it reads there. It is `exec` of
`frameInstr k F`, written by kind because a candidate is always inbound. -/
def runCandidate (k : Kind) (F : List Byte) (s : State) : Host.Outcome State Fault Refusal :=
  match k with
  | .cs => Sys2Proof.Machine.execCs (preOf .cs F) (postOf .cs F) (decodeCs F) (trailerOf F) s
  | .ga => Sys2Proof.Machine.execGa (framedOf .ga F (decodeGa F)) (trailerOf F) s
  | .ra => Sys2Proof.Machine.execRa (framedOf .ra F (decodeRa F)) (trailerOf F) s

end Sys2Proof.Machine
end

