-- ==== Sys2Proof/Machine/Receive.lean ====
section
/-! DEFINITION. The byte input (40_input.md) and the drain (41_frame_decoder.md R110). The functions take the executor
of a candidate as their first argument: the step gives them `exec` itself, the outbound meanings give them
`runCandidate`, and the two agree (Laws/Step.lean). -/

namespace Sys2Proof.Machine

/-- What runs a candidate frame. -/
abbrev Executor := Kind → List Byte → State → Host.Outcome State Fault Refusal

/-- DRAIN (R110) with fuel: attempts until one stops. After a candidate whose delivery hangs nothing more runs (R157). -/
def drainFuel (run : Executor) : Nat → State → Host.Outcome State Fault Refusal
  | 0, s => .next s
  | n + 1, s =>
    match attempt s.acc with
    | .stop _ A => .next { s with acc := A }
    | .candidate k F rest =>
      match run k F { s with acc := rest } with
      | .next s' => if s'.inFlight.isSome then .next s' else drainFuel run n s'
      | .fault r => .fault r
      | .refused r => .refused r

/-- DRAIN: every attempt but the last removes at least 5 bytes, so `|ACC| + 1` attempts are enough (R110). -/
def drain (run : Executor) (s : State) : Host.Outcome State Fault Refusal := drainFuel run (s.acc.length + 1) s

/-- PUSH_BYTE(b) (R90): refused unless running (R172); else append and drain, as one atomic step (R46). No step starts
while a delivery hangs (R157). -/
def pushByte (run : Executor) (b : Byte) (s : State) : Host.Outcome State Fault Refusal :=
  match s.inFlight with
  | some _ => .fault .deliveryHung
  | none =>
    match s.run with
    | .running => drain run { s with acc := s.acc ++ [b] }
    | .stopped => .next (emit (.refused .pushByte) s)
    | .failed => .next (emit (.refused .pushByte) s)

/-- The bytes a hung PUSH_BYTE keeps from being offered stay at the byte source (R91, R157, R207). -/
def holdBack (bs : List Byte) (s : State) : State :=
  match bs with
  | [] => s
  | b :: rest => { s with pending := [.pushChunk (b :: rest)] :: s.pending }

/-- PUSH_CHUNK(c) (R92): one PUSH_BYTE per byte, in order; the empty chunk changes nothing (R93). -/
def pushBytes (run : Executor) : List Byte → State → Host.Outcome State Fault Refusal
  | [], s => .next s
  | b :: bs, s =>
    match pushByte run b s with
    | .next s' => if s'.inFlight.isSome then .next (holdBack bs s') else pushBytes run bs s'
    | .fault r => .fault r
    | .refused r => .refused r

/-- The source's chunk step, for equivalence testing only (R115, D23): append the whole chunk, then drain. -/
def chunkStep (run : Executor) (c : List Byte) (s : State) : Host.Outcome State Fault Refusal :=
  drain run { s with acc := s.acc ++ c }

end Sys2Proof.Machine
end

