-- ==== Sys2Proof/Machine/Outbound.lean ====
section
/-! DEFINITION. The meanings of the outbound reference packets JOYSTICK_STATE, SET_GAINS and RESET_CMD (rows R75 to R77)
on the receive stream. The PFDD does not decode them (30_encoding.md R79): their bytes arrive one PUSH_BYTE each, in
order, and are garbage, except that a false inbound magic among them locks the decoder (41_frame_decoder.md R121), and
that bytes arriving while a candidate is being collected are taken into it unexamined (R122). -/

namespace Sys2Proof.Machine

/-- JOYSTICK_STATE (R75, R79): its 16 bytes arrive on the receive stream. -/
def execJoystickState (seq : Byte) (axX axY rotX rotY buttons ck : Bits16) (s : State) :
    Host.Outcome State Fault Refusal :=
  pushBytes runCandidate (encode (.joystickState seq axX axY rotX rotY buttons ck)) s

/-- SET_GAINS (R76, R79): its 26 bytes arrive on the receive stream. -/
def execSetGains (seq : Byte) (gains : Gains) (ck : Bits16) (s : State) : Host.Outcome State Fault Refusal :=
  pushBytes runCandidate (encode (.setGains seq gains ck)) s

/-- RESET_CMD (R77, R79): its 6 bytes arrive on the receive stream; it does not reset the PFDD. -/
def execResetCmd (seq : Byte) (ck : Bits16) (s : State) : Host.Outcome State Fault Refusal :=
  pushBytes runCandidate (encode (.resetCmd seq ck)) s

end Sys2Proof.Machine
end

