-- ==== Sys2Proof/Machine/Dispatch.lean ====
section
/-! DEFINITION. The dispatch from an instruction to its meaning, one arm per constructor of Instr. -/

namespace Sys2Proof.Machine

def exec (i : Instr) (s : State) : Host.Outcome State Fault Refusal :=
  match i with
  | .cs pre post sample ck => Sys2Proof.Machine.execCs pre post sample ck s
  | .ga gains ck => Sys2Proof.Machine.execGa gains ck s
  | .ra status ck => Sys2Proof.Machine.execRa status ck s
  | .joystickState seq axX axY rotX rotY buttons ck => Sys2Proof.Machine.execJoystickState seq axX axY rotX rotY buttons ck s
  | .setGains seq gains ck => Sys2Proof.Machine.execSetGains seq gains ck s
  | .resetCmd seq ck => Sys2Proof.Machine.execResetCmd seq ck s

end Sys2Proof.Machine
end

