-- ==== Sys2Proof/Machine/HostPort.lean ====
section
/-! DEFINITION. The host's operations (43_dispatcher.md R151, 44_control.md, 70_reset_and_hazards.md R200), the order in
which operations of one cycle are taken (60_exceptions.md R189), and one step of the machine. -/

namespace Sys2Proof.Machine

/-! ## The operations -/

/-- SUBSCRIBE(kc, id) (R151 to R153): append to the bank, or reject and change no table. Admitted in every RUN state. -/
def opSubscribe (kc : BitVec 2) (id : SubId) (s : State) : State :=
  match kindOfCode kc with
  | none => { emit (.subReject kc id .badKind) s with answer := some .rejected }
  | some k =>
    if Config.nSub ≤ (s.subtab.bank k).length then
      { emit (.subReject kc id .full) s with answer := some .rejected }
    else { s with subtab := s.subtab.append k id, answer := some .accepted }

/-- START(open) (R170, R171): admitted only when STOPPED. -/
def opStart (transportOpen : Bool) (s : State) : State :=
  match s.run with
  | .stopped =>
    match transportOpen with
    | true => emit .started { s with run := .running }
    | false => emit .startFailed { s with run := .failed }
  | .running => emit (.refused .start) s
  | .failed => emit (.refused .start) s

/-- READ_REG(n) (R173, R174): the answer is the register's value; a number above 2 is refused and returns nothing. -/
def opReadReg (n : Nat) (s : State) : State :=
  match statusReg s n with
  | some v => { s with answer := some (.value v) }
  | none => { emit (.refused .readReg) s with answer := some .nothing }

/-- RESET() (R200): every element of R20 to its value of R32, and the RESET event. Admitted in every RUN state. -/
def opReset (s : State) : State :=
  emit .reset { s with run := .stopped, acc := [], crcErrCnt := 0, subtab := SubTab.empty }

/-- The bench's OUTCOME line (R80): the latest setting of a subscriber wins. The first such line makes the outcomes a
script's. -/
def opSetOutcome (id : SubId) (o : SubOutcome) (s : State) : State :=
  match s.draws with
  | .free => { s with draws := .scripted [(id, o)] }
  | .scripted set => { s with draws := .scripted ((id, o) :: set) }

/-- The start of a test script: every outcome is OK until an OUTCOME line changes it (R80, log entry 4). -/
def opScriptDefaults (s : State) : State := { s with draws := .scripted [] }

/-! ## Execution -/

/-- The executor of the machine: a candidate is read as an instruction and run by `exec`. -/
def execCandidate : Executor := fun k F s => exec (frameInstr k F) s

/-- One host operation (R175). -/
def runOp (op : HostOp) (s : State) : Host.Outcome State Fault Refusal :=
  match op with
  | .pushByte b => pushByte execCandidate b s
  | .pushChunk c => pushBytes execCandidate c s
  | .start transportOpen => .next (opStart transportOpen s)
  | .subscribe kc id => .next (opSubscribe kc id s)
  | .readReg n => .next (opReadReg n s)
  | .reset => .next (opReset s)
  | .setOutcome id o => .next (opSetOutcome id o s)
  | .scriptDefaults => .next (opScriptDefaults s)

/-- The place of an operation among those of one cycle: RESET, START, SUBSCRIBE, READ_REG, then PUSH_BYTE (R189). The
bench's two lines are no operations of the PFDD and come just before the bytes (log entry 7). -/
def HostOp.rank : HostOp → Nat
  | .reset => 0
  | .start _ => 1
  | .subscribe _ _ => 2
  | .readReg _ => 3
  | .setOutcome _ _ => 4
  | .scriptDefaults => 4
  | .pushByte _ => 5
  | .pushChunk _ => 5

/-- The operation of a cycle that is taken first, with the others in their order: the least rank, the earliest of equals
(R189). -/
def selectOp : List HostOp → Option (HostOp × List HostOp)
  | [] => none
  | op :: ops =>
    match selectOp ops with
    | none => some (op, [])
    | some (best, others) => if op.rank ≤ best.rank then some (op, ops) else some (best, op :: others)

/-- What is still pending after one operation of the head cycle is taken. -/
def stillPending (others : List HostOp) (rest : List (List HostOp)) : List (List HostOp) :=
  match others with
  | [] => rest
  | op :: ops => (op :: ops) :: rest

/-- One step: no step while a delivery hangs (R157); nothing offered, nothing changes (R198); else the next operation of
the head cycle, taken from `pending`, runs as one atomic step (R46). -/
def stepMachine (s : State) : Host.Outcome State Fault Refusal :=
  match s.inFlight with
  | some _ => .fault .deliveryHung
  | none =>
    match s.pending with
    | [] => .next s
    | cycle :: rest =>
      match selectOp cycle with
      | none => .next { s with pending := rest }
      | some (op, others) => runOp op { s with pending := stillPending others rest }

/-- The instruction's bytes offered as the next thing the machine does: running, nothing collected, no delivery hanging,
and the bytes as one chunk at the head of what is pending (log entry 1). -/
def offerInstr (bs : List Byte) (s : State) : State :=
  { s with run := .running, acc := [], inFlight := none, pending := [.pushChunk bs] :: s.pending }

end Sys2Proof.Machine
end

