-- ==== Sys2Proof/Machine/Step.lean ====
section
/-! DEFINITION. The step of the machine, and the state in which the next step runs a given instruction. -/

namespace Sys2Proof.Machine

/-- One step of the PFDD (Machine/HostPort.lean). -/
def step (s : State) : Host.Outcome State Fault Refusal := stepMachine s

/-- `s` with an instruction of the opcode table offered so that the very next step receives and runs it: its bytes, to
the row's length, as the next chunk on the byte input, the unit running and no candidate begun (log entry 1). -/
def State.withFetchWord (s : State) (nbits w : Nat) : State := offerInstr (tableInstrBytes nbits w) s

end Sys2Proof.Machine
end

