-- ==== Sys2Proof/Laws/Bytes.lean ====
section
/-! SUPPORT. The small lemmas of byte sequences: little-endian values and bytes are inverse, lengths, sums. -/

namespace Sys2Proof

@[simp] theorem leNat_nil : leNat [] = 0 := rfl

@[simp] theorem leNat_cons (b : Byte) (bs : List Byte) : leNat (b :: bs) = b.toNat + 256 * leNat bs := rfl

@[simp] theorem leBytes_zero (v : Nat) : leBytes 0 v = [] := rfl

@[simp] theorem leBytes_succ (n v : Nat) : leBytes (n + 1) v = BitVec.ofNat 8 v :: leBytes n (v / 256) := rfl

@[simp] theorem leBytes_length (n v : Nat) : (leBytes n v).length = n := by
  induction n generalizing v with
  | zero => rfl
  | succ n ih => simp [ih]

theorem leNat_lt (bs : List Byte) : leNat bs < 256 ^ bs.length := by
  induction bs with
  | nil => simp
  | cons b bs ih =>
    have hb := b.isLt
    simp only [leNat_cons, List.length_cons, Nat.pow_succ]
    omega

/-- Reading back what was written: the value modulo its width (R8). -/
theorem leNat_leBytes (n v : Nat) : leNat (leBytes n v) = v % 256 ^ n := by
  induction n generalizing v with
  | zero => simp [Nat.mod_one]
  | succ n ih =>
    have h8 : (BitVec.ofNat 8 v).toNat = v % 256 := BitVec.toNat_ofNat v 8
    rw [leBytes_succ, leNat_cons, ih, h8, Nat.pow_succ, Nat.mul_comm (256 ^ n) 256, Nat.mod_mul]

/-- Writing back what was read gives the same bytes (R8). -/
theorem leBytes_leNat (bs : List Byte) : leBytes bs.length (leNat bs) = bs := by
  induction bs with
  | nil => rfl
  | cons b bs ih =>
    have hb := b.isLt
    have hdiv : (b.toNat + 256 * leNat bs) / 256 = leNat bs := by omega
    have hlow : BitVec.ofNat 8 (b.toNat + 256 * leNat bs) = b := by
      apply BitVec.eq_of_toNat_eq
      simp only [BitVec.toNat_ofNat]
      omega
    simp only [List.length_cons, leBytes_succ, leNat_cons, hdiv, hlow, ih]

@[simp] theorem byteSum_nil : byteSum [] = 0 := rfl

@[simp] theorem byteSum_cons (b : Byte) (bs : List Byte) : byteSum (b :: bs) = b.toNat + byteSum bs := rfl

theorem byteSum_append (a b : List Byte) : byteSum (a ++ b) = byteSum a + byteSum b := by
  induction a with
  | nil => simp
  | cons x a ih => simp [ih, Nat.add_assoc]

/-- A sum of n bytes is at most 255 n (R68). -/
theorem byteSum_le (bs : List Byte) : byteSum bs ≤ 255 * bs.length := by
  induction bs with
  | nil => simp
  | cons b bs ih =>
    have hb := b.isLt
    simp only [byteSum_cons, List.length_cons]
    omega

@[simp] theorem bytes64x5_length (v : Five Bits64) : (bytes64x5 v).length = 40 := by
  simp [bytes64x5, Five.toList]

@[simp] theorem bytes32x5_length (v : Five Bits32) : (bytes32x5 v).length = 20 := by
  simp [bytes32x5, Five.toList]

@[simp] theorem sampleBytes_length (s : Sample) : (sampleBytes s).length = 68 := by
  simp [sampleBytes]

@[simp] theorem kind_len_cs : Kind.cs.len = 74 := rfl
@[simp] theorem kind_len_ga : Kind.ga.len = 24 := rfl
@[simp] theorem kind_len_ra : Kind.ra.len = 5 := rfl

/-- Every frame is at least 5 bytes long (R104). -/
theorem five_le_kind_len (k : Kind) : 5 ≤ k.len := by cases k <;> decide

/-- No frame is longer than ACC_CAP (R6, R118). -/
theorem kind_len_le_accCap (k : Kind) : k.len ≤ Config.accCap := by cases k <;> decide

/-- What a kind table must meet to be one (R60): the prefix holds the magic, and the frame holds the prefix, the fields of
the layout and the trailer. -/
theorem kindTable_fits (k : Kind) : 2 ≤ k.pfx ∧ k.pfx + k.fieldBytes + 2 ≤ k.len := by cases k <;> decide

@[simp] theorem kind_magic_length (k : Kind) : k.magic.length = 2 := rfl

@[simp] theorem kindOf_CC : kindOf 0xCC#8 = some .cs := rfl
@[simp] theorem kindOf_DD : kindOf 0xDD#8 = some .ga := rfl
@[simp] theorem kindOf_EE : kindOf 0xEE#8 = some .ra := rfl
@[simp] theorem kindOf_AA : kindOf 0xAA#8 = none := rfl
@[simp] theorem kindOf_55 : kindOf 0x55#8 = none := rfl

/-- The second magic byte of a kind is the one its row names (R61). -/
theorem eq_of_kindOf (b : Byte) (k : Kind) (h : kindOf b = some k) : b = (Config.kindTable k).magic1 := by
  have hb := List.find?_some (show Kind.all.find? (fun k => (Config.kindTable k).magic1 == b) = some k from h)
  exact (beq_iff_eq.1 hb).symm

/-- The second magic byte of a kind names it (R69). -/
@[simp] theorem kindOf_magic1 (k : Kind) : kindOf (Config.kindTable k).magic1 = some k := by cases k <;> rfl

/-- The first magic byte of every kind is AA (R61). -/
theorem kindTable_magic0 (k : Kind) : (Config.kindTable k).magic0 = 0xAA := by cases k <;> rfl

/-- The one byte that begins a magic is AA (R61). -/
theorem startsMagic_eq (b : Byte) : startsMagic b = (b == 0xAA) := by
  have h : (0xAA == b) = (b == 0xAA) := Bool.beq_comm
  simp only [startsMagic, Kind.all, List.any_cons, List.any_nil, kindTable_magic0, h, Bool.or_false, Bool.or_self]

@[simp] theorem firstMagic_nil : firstMagic [] = none := rfl
@[simp] theorem firstMagic_single (b : Byte) : firstMagic [b] = none := rfl

@[simp] theorem magicAt_nil (i : Nat) : magicAt [] i = none := by simp [magicAt]
@[simp] theorem magicAt_single (b : Byte) (i : Nat) : magicAt [b] i = none := by simp [magicAt]

/-- A magic occurs where AA stands before a kind's second byte (R69). -/
theorem magicAt_eq (A : List Byte) (i : Nat) :
    magicAt A i = if i + 1 < A.length ∧ byteAt A i = 0xAA then kindOf (byteAt A (i + 1)) else none := by
  unfold magicAt
  have h : (0xAA == byteAt A i) = decide (byteAt A i = 0xAA) := by rw [Bool.beq_comm]; rfl
  cases kindOf (byteAt A (i + 1)) <;> simp only [Option.filter, kindTable_magic0, h] <;> split <;> simp_all

/-- A magic at the head is decided by the first two bytes (R69, R71). -/
theorem magicAt_zero_cons (b0 b1 : Byte) (rest : List Byte) :
    magicAt (b0 :: b1 :: rest) 0 = if b0 = 0xAA then kindOf b1 else none := by
  simp [magicAt_eq, byteAt]

/-- A magic further on is one of the tail. -/
theorem magicAt_succ_cons (b : Byte) (A : List Byte) (i : Nat) : magicAt (b :: A) (i + 1) = magicAt A i := by
  simp [magicAt_eq, byteAt]

/-- A magic-led sequence begins with its magic. -/
theorem head_of_magicAt {A : List Byte} {k : Kind} (h : magicAt A 0 = some k) :
    ∃ rest, A = 0xAA :: (Config.kindTable k).magic1 :: rest := by
  match A, h with
  | [], h => simp at h
  | [b], h => simp at h
  | b0 :: b1 :: rest, h =>
    rw [magicAt_zero_cons] at h
    split at h
    · rename_i h0
      exact ⟨rest, by rw [h0, eq_of_kindOf b1 k h]⟩
    · cases h

/-- A magic at the head is the first magic (R101). -/
theorem firstMagic_of_magicAt {A : List Byte} {k : Kind} (h : magicAt A 0 = some k) : firstMagic A = some (0, k) := by
  match A, h with
  | [], h => simp at h
  | [b], h => simp at h
  | b0 :: b1 :: rest, h => simp [firstMagic, h]

/-- Appending bytes leaves a magic at the head where it is (R72). -/
theorem magicAt_zero_append {A : List Byte} {k : Kind} (h : magicAt A 0 = some k) (B : List Byte) :
    magicAt (A ++ B) 0 = some k := by
  obtain ⟨rest, rfl⟩ := head_of_magicAt h
  simp [magicAt_zero_cons]

end Sys2Proof
end

