-- ==== Sys2Proof/Laws/Decode.lean ====
section
/-! SUPPORT. Lemmas of the packet layouts: a field written back is the bytes it was read from, a field read back is the
value written, and a candidate is the encoding of the frame read from it. -/

namespace Sys2Proof

/-- A field's bytes are what its value writes (R8). -/
theorem leBytes_memRead (F : List Byte) (off n : Nat) (h : off + n ≤ F.length) :
    leBytes n (memRead F off n) = (F.drop off).take n := by
  have hlen : ((F.drop off).take n).length = n := by simp; omega
  calc leBytes n (memRead F off n) = leBytes ((F.drop off).take n).length (leNat ((F.drop off).take n)) := by
        rw [hlen]; rfl
    _ = (F.drop off).take n := leBytes_leNat _

theorem memRead_lt (F : List Byte) (off n : Nat) : memRead F off n < 256 ^ n := by
  refine lt_of_lt_of_le (leNat_lt _) (Nat.pow_le_pow_right (by decide) ?_)
  simp

theorem leBytes_read16 (F : List Byte) (off : Nat) (h : off + 2 ≤ F.length) :
    leBytes 2 (read16 F off).toNat = (F.drop off).take 2 := by
  have := memRead_lt F off 2
  rw [read16, BitVec.toNat_ofNat, Nat.mod_eq_of_lt (by simpa using this), leBytes_memRead F off 2 h]

theorem leBytes_read32 (F : List Byte) (off : Nat) (h : off + 4 ≤ F.length) :
    leBytes 4 (BitVec.ofNat 32 (memRead F off 4)).toNat = (F.drop off).take 4 := by
  have := memRead_lt F off 4
  rw [BitVec.toNat_ofNat, Nat.mod_eq_of_lt (by simpa using this), leBytes_memRead F off 4 h]

theorem leBytes_read64 (F : List Byte) (off : Nat) (h : off + 8 ≤ F.length) :
    leBytes 8 (BitVec.ofNat 64 (memRead F off 8)).toNat = (F.drop off).take 8 := by
  have := memRead_lt F off 8
  rw [BitVec.toNat_ofNat, Nat.mod_eq_of_lt (by simpa using this), leBytes_memRead F off 8 h]

/-- The trailer's bytes are the last two (R65). -/
theorem leBytes_trailerOf (F : List Byte) (h : 2 ≤ F.length) :
    leBytes 2 (trailerOf F).toNat = F.drop (F.length - 2) := by
  have h2 := leBytes_read16 F (F.length - 2) (by omega)
  have : (F.drop (F.length - 2)).take 2 = F.drop (F.length - 2) := List.take_of_length_le (by simp; omega)
  simpa [read16, trailerOf, this] using h2

/-- Two neighbouring pieces of a sequence are one piece. -/
theorem take_drop_join (F : List Byte) (a n m : Nat) :
    (F.drop a).take n ++ (F.drop (a + n)).take m = (F.drop a).take (n + m) := by
  rw [List.take_add, List.drop_drop]

theorem bytes64x5_read (F : List Byte) (off : Nat) (h : off + 40 ≤ F.length) :
    bytes64x5 (read64x5 F off) = (F.drop off).take 40 := by
  simp only [bytes64x5, read64x5, Five.toList, List.flatMap_cons, List.flatMap_nil, List.append_nil]
  rw [leBytes_read64 F off (by omega), leBytes_read64 F (off + 8) (by omega),
    leBytes_read64 F (off + 16) (by omega), leBytes_read64 F (off + 24) (by omega),
    leBytes_read64 F (off + 32) (by omega)]
  rw [take_drop_join F (off + 24) 8 8, take_drop_join F (off + 16) 8 16, take_drop_join F (off + 8) 8 24,
    take_drop_join F off 8 32]

theorem bytes32x5_read (F : List Byte) (off : Nat) (h : off + 20 ≤ F.length) :
    bytes32x5 (read32x5 F off) = (F.drop off).take 20 := by
  simp only [bytes32x5, read32x5, Five.toList, List.flatMap_cons, List.flatMap_nil, List.append_nil]
  rw [leBytes_read32 F off (by omega), leBytes_read32 F (off + 4) (by omega),
    leBytes_read32 F (off + 8) (by omega), leBytes_read32 F (off + 12) (by omega),
    leBytes_read32 F (off + 16) (by omega)]
  rw [take_drop_join F (off + 12) 4 4, take_drop_join F (off + 8) 4 8, take_drop_join F (off + 4) 4 12,
    take_drop_join F off 4 16]

theorem sampleBytes_decodeCs (F : List Byte) (h : Kind.cs.pfx + 68 ≤ F.length) :
    sampleBytes (decodeCs F) = (F.drop Kind.cs.pfx).take 68 := by
  simp only [sampleBytes, decodeCs]
  generalize Kind.cs.pfx = p at *
  rw [leBytes_read32 F p (by omega), leBytes_read64 F (p + 4) (by omega), leBytes_read64 F (p + 12) (by omega),
    leBytes_read64 F (p + 20) (by omega), bytes64x5_read F (p + 28) (by omega)]
  rw [take_drop_join F p 4 8, take_drop_join F p 12 8, take_drop_join F p 20 8, take_drop_join F p 28 40]

/-- The bytes from an offset on are the piece there. -/
theorem bytesFrom_eq (F : List Byte) (off n : Nat) (h : off + n ≤ F.length) :
    bytesFrom F off n = (F.drop off).take n := by
  apply List.ext_getElem
  · simp [bytesFrom]; omega
  · intro i h1 h2
    simp only [bytesFrom, List.length_map, List.length_range] at h1
    simp [bytesFrom, byteAt, List.getElem?_eq_getElem (show off + i < F.length by omega)]

/-- Four neighbouring pieces and the last two bytes are the whole candidate (R60), whatever the kind table says. -/
theorem inboundBody_read (k : Kind) (F : List Byte) (hlen : F.length = k.len) (hm : F.take 2 = k.magic) :
    inboundBody k (preOf k F) ((F.drop k.pfx).take k.fieldBytes) (postOf k F) ++ leBytes 2 (trailerOf F).toNat = F := by
  obtain ⟨h2, hfit⟩ := kindTable_fits k
  rw [leBytes_trailerOf F (by omega), hlen]
  simp only [inboundBody, preOf, postOf, Kind.preBytes, Kind.postBytes]
  rw [bytesFrom_eq F _ _ (by omega), bytesFrom_eq F _ _ (by omega), ← hm]
  have h0 : F.take 2 ++ (F.drop 2).take (k.pfx - 2) = F.take k.pfx := by
    rw [← List.take_add]; congr 1; omega
  have h1 : F.take k.pfx ++ (F.drop k.pfx).take k.fieldBytes = F.take (k.pfx + k.fieldBytes) := List.take_add.symm
  have h3 : F.take (k.pfx + k.fieldBytes) ++ (F.drop (k.pfx + k.fieldBytes)).take (k.len - k.pfx - k.fieldBytes - 2)
      = F.take (k.len - 2) := by
    rw [← List.take_add]; congr 1; omega
  rw [h0, h1, h3, List.take_append_drop]

/-- A candidate is the encoding of the frame read from it: the decoder drops no bit of it (R105, R131 to R133). -/
theorem encode_frameInstr (k : Kind) (F : List Byte) (hlen : F.length = k.len) (hm : magicAt F 0 = some k) :
    encode (frameInstr k F) = F := by
  have hmag : F.take 2 = k.magic := by
    obtain ⟨rest, rfl⟩ := head_of_magicAt hm
    simp [Kind.magic, kindTable_magic0]
  have hfit := kindTable_fits k
  refine Eq.trans ?_ (inboundBody_read k F hlen hmag)
  have hf : k.pfx + k.fieldBytes ≤ F.length := by omega
  cases k with
  | cs => exact congrArg (fun f => inboundBody .cs _ f _ ++ _) (sampleBytes_decodeCs F hf)
  | ga => exact congrArg (fun f => inboundBody .ga _ f _ ++ _) (bytes32x5_read F _ hf)
  | ra =>
    have h := bytesFrom_eq F Kind.ra.pfx 1 hf
    exact congrArg (fun f => inboundBody .ra (preOf .ra F) f (postOf .ra F) ++ leBytes 2 (trailerOf F).toNat) h

/-- A frame read from bytes of kind `k` is an inbound frame of kind `k`. -/
@[simp] theorem frameInstr_kind (k : Kind) (F : List Byte) : (frameInstr k F).kind = some k := by cases k <;> rfl

/-- A frame's bytes before its trailer: the length less what the fields leave of the layout. -/
theorem inboundBody_length (k : Kind) (pre : Bytes k.preBytes) (fields : List Byte) (post : Bytes k.postBytes) :
    (inboundBody k pre fields post).length = 2 + (k.pfx - 2) + fields.length + (k.len - k.pfx - k.fieldBytes - 2) := by
  simp [inboundBody, pre.length_eq, post.length_eq, Kind.preBytes, Kind.postBytes]; omega

/-- Bytes are equal when their lists are. -/
theorem Bytes.eq_of_list {n : Nat} {a b : Bytes n} (h : a.list = b.list) : a = b := by
  cases a; cases b; cases h; rfl

/-- No bytes are no bytes. -/
theorem Bytes.list_eq_nil {n : Nat} (a : Bytes n) (h : n = 0) : a.list = [] :=
  List.length_eq_zero_iff.1 (a.length_eq.trans h)

/-- An inbound frame's bytes are as long as its kind says (R60). -/
theorem encode_length_of_kind (i : Instr) (k : Kind) (h : i.kind = some k) : (encode i).length = k.len := by
  have hfit := kindTable_fits k
  cases i <;> simp only [Instr.kind, Option.some.injEq, reduceCtorEq] at h <;> subst h <;>
    simp only [encode, bodyBytes, inboundBody_length, List.length_append, leBytes_length, sampleBytes_length,
      bytes32x5_length, List.length_singleton, Kind.fieldBytes] at hfit ⊢ <;> omega

/-- An inbound frame's bytes begin with its kind's magic (R60, R61). -/
theorem magicAt_encode (i : Instr) (k : Kind) (h : i.kind = some k) : magicAt (encode i) 0 = some k := by
  have hk : magicAt (k.magic) 0 = some k := by cases k <;> rfl
  cases i <;> simp only [Instr.kind, Option.some.injEq, reduceCtorEq] at h <;> subst h <;>
    simp only [encode, bodyBytes, inboundBody, List.append_assoc] <;> exact magicAt_zero_append hk _

/-- Every packet is at least 5 bytes. -/
theorem five_le_encode_length (i : Instr) : 5 ≤ (encode i).length := by
  cases hk : i.kind with
  | some k => rw [encode_length_of_kind i k hk]; exact five_le_kind_len k
  | none => cases i <;> simp [Instr.kind] at hk <;> simp [encode, bodyBytes]

/-- The covered bytes and the trailer of an encoded packet (R66, R65). -/
theorem trailerOf_encode (i : Instr) : trailerOf (encode i) = i.ck := by
  have hlen : (encode i).length - 2 = (bodyBytes i).length := by simp [encode]
  have hd : (encode i).drop (bodyBytes i).length = leBytes 2 i.ck.toNat := by simp [encode]
  have ht : (leBytes 2 i.ck.toNat).take 2 = leBytes 2 i.ck.toNat := List.take_of_length_le (by simp)
  apply BitVec.eq_of_toNat_eq
  rw [trailerOf, memRead, hlen, hd, ht, leNat_leBytes, BitVec.toNat_ofNat]
  have := i.ck.isLt
  omega

/-- An inbound frame is well-formed exactly when its bytes pass the checksum check (R67, R106). -/
theorem wellFormed_iff_of_kind (i : Instr) (k : Kind) (h : i.kind = some k) :
    i.WellFormed ↔ ckOf (encode i) = trailerOf (encode i) := by
  have hs : i.senderCk = ckOf (encode i) := by
    cases i <;> simp [Instr.kind] at h <;> rfl
  simp only [Instr.WellFormed, Instr.wellFormed, beq_iff_eq, hs, trailerOf_encode]
  exact eq_comm

end Sys2Proof
end

