-- ==== Sys2Proof/Laws/PerInstr.lean ====
section
/-! SUPPORT. The statement made per instruction: the shape of its encoding. Its first bytes are its row's decode word in
stream order (30_encoding.md R81) and its length is the row's. -/

namespace Sys2Proof.Laws.EncodeShape

/-- The format of an instruction's row. -/
def formatOf : Instr → Format
  | .cs _ _ _ _ => .cs
  | .ga _ _ => .ga
  | .ra _ _ => .ra
  | .joystickState _ _ _ _ _ _ _ => .joystickState
  | .setGains _ _ _ => .setGains
  | .resetCmd _ _ => .resetCmd

/-- The instruction's bytes select its own row of the opcode table, and are as long as that row says. -/
def Statement (i : Instr) : Prop :=
  ∃ r, rowOf (encode i) = some r ∧ r.format = formatOf i ∧ (encode i).length = r.length

/-- The shape of every inbound frame: its magic selects its kind's row. -/
theorem inbound (i : Instr) (k : Kind) (hk : i.kind = some k) (hf : formatOf i = k.format) : Statement i := by
  obtain ⟨rest, hr⟩ := head_of_magicAt (magicAt_encode i k hk)
  refine ⟨inboundRow k, ?_, hf.symm, encode_length_of_kind i k hk⟩
  rw [hr]
  cases k <;> simp [rowOf, opTable, inboundRow, OpRow.selects, streamWord, Kind.magic, Config.kindTable]

theorem cs (pre : Bytes Kind.cs.preBytes) (post : Bytes Kind.cs.postBytes) (sample : Sample) (ck : Bits16) :
    Statement (.cs pre post sample ck) := inbound _ .cs rfl rfl

theorem ga (gains : Framed .ga Gains) (ck : Bits16) : Statement (.ga gains ck) := inbound _ .ga rfl rfl

theorem ra (status : Framed .ra Byte) (ck : Bits16) : Statement (.ra status ck) := inbound _ .ra rfl rfl

theorem joystickState (seq : Byte) (axX axY rotX rotY buttons : Bits16) (ck : Bits16) :
    Statement (.joystickState seq axX axY rotX rotY buttons ck) :=
  ⟨{ format := .joystickState, opBytes := 3, mask := 0xFFFFFF, pattern := 0xAA5501, length := 16 }, by
    simp [rowOf, opTable, inboundRow, Kind.magic, Config.kindTable, encode, bodyBytes, OpRow.selects, streamWord],
    rfl, by simp [encode, bodyBytes]⟩

theorem setGains (seq : Byte) (gains : Gains) (ck : Bits16) : Statement (.setGains seq gains ck) :=
  ⟨{ format := .setGains, opBytes := 3, mask := 0xFFFFFF, pattern := 0xAA5502, length := 26 }, by
    simp [rowOf, opTable, inboundRow, Kind.magic, Config.kindTable, encode, bodyBytes, OpRow.selects, streamWord],
    rfl, by simp [encode, bodyBytes]⟩

theorem resetCmd (seq : Byte) (ck : Bits16) : Statement (.resetCmd seq ck) :=
  ⟨{ format := .resetCmd, opBytes := 3, mask := 0xFFFFFF, pattern := 0xAA5503, length := 6 }, by
    simp [rowOf, opTable, inboundRow, Kind.magic, Config.kindTable, encode, bodyBytes, OpRow.selects, streamWord],
    rfl, by simp [encode, bodyBytes]⟩

end Sys2Proof.Laws.EncodeShape
end

