-- ==== Sys2Proof/Laws/State.lean ====
section
/-! SUPPORT. One lemma per field per update of State, so that no later proof unfolds a record update. -/

namespace Sys2Proof.Machine

section emit
variable (e : Event) (s : State)
@[simp] theorem emit_run : (emit e s).run = s.run := rfl
@[simp] theorem emit_acc : (emit e s).acc = s.acc := rfl
@[simp] theorem emit_crcErrCnt : (emit e s).crcErrCnt = s.crcErrCnt := rfl
@[simp] theorem emit_subtab : (emit e s).subtab = s.subtab := rfl
@[simp] theorem emit_trace : (emit e s).trace = s.trace ++ [e] := rfl
@[simp] theorem emit_inFlight : (emit e s).inFlight = s.inFlight := rfl
@[simp] theorem emit_pending : (emit e s).pending = s.pending := rfl
@[simp] theorem emit_answer : (emit e s).answer = s.answer := rfl
@[simp] theorem emit_draws : (emit e s).draws = s.draws := rfl
@[simp] theorem emit_drawCount : (emit e s).drawCount = s.drawCount := rfl
end emit

section offerDelivery
variable (k : Kind) (j : Nat) (id : SubId) (v : Value) (s : State)
@[simp] theorem offerDelivery_run : (offerDelivery k j id v s).run = s.run := rfl
@[simp] theorem offerDelivery_acc : (offerDelivery k j id v s).acc = s.acc := rfl
@[simp] theorem offerDelivery_crcErrCnt : (offerDelivery k j id v s).crcErrCnt = s.crcErrCnt := rfl
@[simp] theorem offerDelivery_subtab : (offerDelivery k j id v s).subtab = s.subtab := rfl
@[simp] theorem offerDelivery_trace : (offerDelivery k j id v s).trace = s.trace ++ [.deliver k j id v] := rfl
@[simp] theorem offerDelivery_inFlight : (offerDelivery k j id v s).inFlight = s.inFlight := rfl
@[simp] theorem offerDelivery_pending : (offerDelivery k j id v s).pending = s.pending := rfl
@[simp] theorem offerDelivery_answer : (offerDelivery k j id v s).answer = s.answer := rfl
@[simp] theorem offerDelivery_draws : (offerDelivery k j id v s).draws = s.draws := rfl
@[simp] theorem offerDelivery_drawCount : (offerDelivery k j id v s).drawCount = s.drawCount + 1 := rfl
end offerDelivery

section crcDrop
variable (k : Kind) (received computed : Bits16) (s : State)
@[simp] theorem crcDrop_run : (crcDrop k received computed s).run = s.run := rfl
@[simp] theorem crcDrop_acc : (crcDrop k received computed s).acc = s.acc := rfl
@[simp] theorem crcDrop_crcErrCnt : (crcDrop k received computed s).crcErrCnt = s.crcErrCnt + 1 := rfl
@[simp] theorem crcDrop_subtab : (crcDrop k received computed s).subtab = s.subtab := rfl
@[simp] theorem crcDrop_trace :
    (crcDrop k received computed s).trace = s.trace ++ [.crcDrop k received computed] := rfl
@[simp] theorem crcDrop_inFlight : (crcDrop k received computed s).inFlight = s.inFlight := rfl
@[simp] theorem crcDrop_pending : (crcDrop k received computed s).pending = s.pending := rfl
@[simp] theorem crcDrop_answer : (crcDrop k received computed s).answer = s.answer := rfl
@[simp] theorem crcDrop_draws : (crcDrop k received computed s).draws = s.draws := rfl
@[simp] theorem crcDrop_drawCount : (crcDrop k received computed s).drawCount = s.drawCount := rfl
end crcDrop

section holdBack
variable (bs : List Byte) (s : State)
@[simp] theorem holdBack_run : (holdBack bs s).run = s.run := by cases bs <;> rfl
@[simp] theorem holdBack_acc : (holdBack bs s).acc = s.acc := by cases bs <;> rfl
@[simp] theorem holdBack_crcErrCnt : (holdBack bs s).crcErrCnt = s.crcErrCnt := by cases bs <;> rfl
@[simp] theorem holdBack_subtab : (holdBack bs s).subtab = s.subtab := by cases bs <;> rfl
@[simp] theorem holdBack_trace : (holdBack bs s).trace = s.trace := by cases bs <;> rfl
@[simp] theorem holdBack_inFlight : (holdBack bs s).inFlight = s.inFlight := by cases bs <;> rfl
@[simp] theorem holdBack_answer : (holdBack bs s).answer = s.answer := by cases bs <;> rfl
@[simp] theorem holdBack_draws : (holdBack bs s).draws = s.draws := by cases bs <;> rfl
@[simp] theorem holdBack_drawCount : (holdBack bs s).drawCount = s.drawCount := by cases bs <;> rfl
end holdBack

section opReset
variable (s : State)
@[simp] theorem opReset_run : (opReset s).run = .stopped := rfl
@[simp] theorem opReset_acc : (opReset s).acc = [] := rfl
@[simp] theorem opReset_crcErrCnt : (opReset s).crcErrCnt = 0 := rfl
@[simp] theorem opReset_subtab : (opReset s).subtab = SubTab.empty := rfl
@[simp] theorem opReset_trace : (opReset s).trace = s.trace ++ [.reset] := rfl
@[simp] theorem opReset_inFlight : (opReset s).inFlight = s.inFlight := rfl
@[simp] theorem opReset_pending : (opReset s).pending = s.pending := rfl
@[simp] theorem opReset_answer : (opReset s).answer = s.answer := rfl
@[simp] theorem opReset_draws : (opReset s).draws = s.draws := rfl
@[simp] theorem opReset_drawCount : (opReset s).drawCount = s.drawCount := rfl
end opReset

@[simp] theorem bank_empty (k : Kind) : SubTab.empty.bank k = [] := by cases k <;> rfl

/-- An appended entry is the last of its own bank and changes no other (R151, R161). -/
theorem bank_append (t : SubTab) (k k' : Kind) (id : SubId) :
    (t.append k id).bank k' = if k' = k then t.bank k' ++ [id] else t.bank k' := by
  cases k <;> cases k' <;> rfl

end Sys2Proof.Machine
end

