-- ==== Sys2Proof/Laws/Ops.lean ====
section
/-! SUPPORT. What each shared operation can do, said once: the publish and its deliveries, the check of a candidate. -/

namespace Sys2Proof.Machine

/-! ## Deliveries leave the machine alone (R156) -/

section deliverFrom
variable (k : Kind) (v : Value) (L : List SubId)

theorem deliverFrom_frame (j : Nat) (s : State) :
    (deliverFrom k v j L s).run = s.run ∧ (deliverFrom k v j L s).acc = s.acc ∧
    (deliverFrom k v j L s).crcErrCnt = s.crcErrCnt ∧ (deliverFrom k v j L s).subtab = s.subtab ∧
    (deliverFrom k v j L s).pending = s.pending ∧ (deliverFrom k v j L s).answer = s.answer ∧
    (deliverFrom k v j L s).draws = s.draws := by
  induction L generalizing j s with
  | nil => exact ⟨rfl, rfl, rfl, rfl, rfl, rfl, rfl⟩
  | cons id L ih =>
    unfold deliverFrom
    split
    · simpa using ih (j + 1) (offerDelivery k j id v s)
    · simpa using ih (j + 1) (emit (.subFault k j id) (offerDelivery k j id v s))
    · simp

/-- Deliveries append events, each a DELIVER of this kind and value or a SUB_FAULT of this kind. -/
theorem deliverFrom_trace (j : Nat) (s : State) :
    ∃ es, (deliverFrom k v j L s).trace = s.trace ++ es ∧
      ∀ e ∈ es, (∃ j' id, e = .deliver k j' id v) ∨ (∃ j' id, e = .subFault k j' id) := by
  induction L generalizing j s with
  | nil => exact ⟨[], by simp [deliverFrom], by simp⟩
  | cons id L ih =>
    unfold deliverFrom
    split
    · obtain ⟨es, he, hall⟩ := ih (j + 1) (offerDelivery k j id v s)
      refine ⟨.deliver k j id v :: es, by simp [he], ?_⟩
      rintro e (_ | ⟨_, h⟩)
      · exact .inl ⟨j, id, rfl⟩
      · exact hall e h
    · obtain ⟨es, he, hall⟩ := ih (j + 1) (emit (.subFault k j id) (offerDelivery k j id v s))
      refine ⟨.deliver k j id v :: .subFault k j id :: es, by simp [he], ?_⟩
      rintro e (_ | ⟨_, _ | ⟨_, h⟩⟩)
      · exact .inl ⟨j, id, rfl⟩
      · exact .inr ⟨j, id, rfl⟩
      · exact hall e h
    · refine ⟨[.deliver k j id v], by simp, ?_⟩
      rintro e (_ | ⟨_, h⟩)
      · exact .inl ⟨j, id, rfl⟩
      · cases h

/-- Deliveries end with none on the port, or with the hung one, whose event is the last (R157). -/
theorem deliverFrom_inFlight (j : Nat) (s : State) (h : s.inFlight = none) :
    (deliverFrom k v j L s).inFlight = none ∨
      ∃ d, (deliverFrom k v j L s).inFlight = some d ∧
        (deliverFrom k v j L s).trace.getLast? = some (.deliver d.kind d.index d.subId d.value) := by
  induction L generalizing j s with
  | nil => exact .inl h
  | cons id L ih =>
    unfold deliverFrom
    split
    · exact ih (j + 1) (offerDelivery k j id v s) h
    · exact ih (j + 1) (emit (.subFault k j id) (offerDelivery k j id v s)) h
    · exact .inr ⟨_, rfl, by simp⟩

end deliverFrom

section publish
variable (k : Kind) (v : Value) (s : State)

@[simp] theorem publish_run : (publish k v s).run = s.run := (deliverFrom_frame k v _ 0 _).1
@[simp] theorem publish_acc : (publish k v s).acc = s.acc := (deliverFrom_frame k v _ 0 _).2.1
@[simp] theorem publish_crcErrCnt : (publish k v s).crcErrCnt = s.crcErrCnt := (deliverFrom_frame k v _ 0 _).2.2.1
@[simp] theorem publish_subtab : (publish k v s).subtab = s.subtab := (deliverFrom_frame k v _ 0 _).2.2.2.1
@[simp] theorem publish_pending : (publish k v s).pending = s.pending := (deliverFrom_frame k v _ 0 _).2.2.2.2.1
@[simp] theorem publish_answer : (publish k v s).answer = s.answer := (deliverFrom_frame k v _ 0 _).2.2.2.2.2.1
@[simp] theorem publish_draws : (publish k v s).draws = s.draws := (deliverFrom_frame k v _ 0 _).2.2.2.2.2.2

/-- A publish appends FRAME_OK, then events of its own deliveries only. -/
theorem publish_trace :
    ∃ es, (publish k v s).trace = s.trace ++ .frameOk k v :: es ∧
      ∀ e ∈ es, (∃ j id, e = .deliver k j id v) ∨ (∃ j id, e = .subFault k j id) := by
  obtain ⟨es, he, hall⟩ := deliverFrom_trace k v (s.subtab.bank k) 0 (emit (.frameOk k v) s)
  exact ⟨es, by simp [publish, he], hall⟩

theorem publish_inFlight (h : s.inFlight = none) :
    (publish k v s).inFlight = none ∨
      ∃ d, (publish k v s).inFlight = some d ∧
        (publish k v s).trace.getLast? = some (.deliver d.kind d.index d.subId d.value) :=
  deliverFrom_inFlight k v _ 0 _ h

/-- The deliveries do not read the accumulator: it can be set before or after the publish. -/
theorem publish_withAcc (A : List Byte) : publish k v { s with acc := A } = { publish k v s with acc := A } := by
  have h : ∀ (L : List SubId) (j : Nat) (t : State),
      deliverFrom k v j L { t with acc := A } = { deliverFrom k v j L t with acc := A } := by
    intro L
    induction L with
    | nil => intro j t; rfl
    | cons id L ih =>
      intro j t
      have hd : drawOutcome { t with acc := A } id = drawOutcome t id := rfl
      unfold deliverFrom
      rw [hd]
      split
      · exact ih (j + 1) (offerDelivery k j id v t)
      · exact ih (j + 1) (emit (.subFault k j id) (offerDelivery k j id v t))
      · rfl
  exact h (s.subtab.bank k) 0 (emit (.frameOk k v) s)

end publish

/-! ## The check of a candidate (R106 to R108) -/

/-- A candidate's check always answers, unless a delivery hangs already: a publish on a match, a drop otherwise. -/
theorem checkCandidate_eq (k : Kind) (F : List Byte) (v : Value) (s : State) (h : s.inFlight = none) :
    checkCandidate k F v s =
      .next (if ckOf F = trailerOf F then publish k v s else crcDrop k (trailerOf F) (ckOf F) s) := by
  by_cases hc : ckOf F = trailerOf F <;> simp [checkCandidate, h, hc]

/-- The decoder's call of a meaning is the check of the candidate itself, with the value decoded from it. -/
theorem runCandidate_eq_check (k : Kind) (F : List Byte) (s : State) (hlen : F.length = k.len)
    (hm : magicAt F 0 = some k) :
    ∃ v, (frameInstr k F).value = some v ∧ runCandidate k F s = checkCandidate k F v s := by
  have h := encode_frameInstr k F hlen hm
  cases k with
  | cs => exact ⟨_, rfl, congrArg (fun G => checkCandidate .cs G (.sample (decodeCs F)) s) h⟩
  | ga => exact ⟨_, rfl, congrArg (fun G => checkCandidate .ga G (.gains (decodeGa F)) s) h⟩
  | ra => exact ⟨_, rfl, congrArg (fun G => checkCandidate .ra G (.status (decodeRa F)) s) h⟩

end Sys2Proof.Machine
end

