-- ==== Sys2Proof/Safety.lean ====
section
/-! DEFINITION. What counts as a good state and a good run, in the terms the statements use. -/

namespace Sys2Proof.Machine

/-- The unparsed bytes of a ControlStatus under R61: u0 and u1 (R62, R135). -/
def unparsedCs (u0 u1 : Byte) : Bytes Kind.cs.preBytes := { list := [u0, u1], length_eq := rfl }

/-- Under R61 no byte stands between the fields of a kind and its trailer. -/
def noBytes (k : Kind) : Bytes k.postBytes := { list := [], length_eq := by cases k <;> rfl }

/-- The gains of a GainsAck; under R61 no byte is unparsed (R63). -/
def framedGains (g : Gains) : Framed .ga Gains :=
  { pre := { list := [], length_eq := rfl }, fields := g, post := noBytes .ga }

/-- The status byte of a ResetAck; under R61 no byte is unparsed (R64). -/
def framedStatus (st : Byte) : Framed .ra Byte :=
  { pre := { list := [], length_eq := rfl }, fields := st, post := noBytes .ra }

/-- The ControlStatus of R62, with KIND_TABLE as R61 gives it. -/
def csFrame (u0 u1 : Byte) (smp : Sample) (ck : Bits16) : Instr := .cs (unparsedCs u0 u1) (noBytes .cs) smp ck

/-- The GainsAck of R63, with KIND_TABLE as R61 gives it. -/
def gaFrame (g : Gains) (ck : Bits16) : Instr := .ga (framedGains g) ck

/-- The ResetAck of R64, with KIND_TABLE as R61 gives it. -/
def raFrame (st : Byte) (ck : Bits16) : Instr := .ra (framedStatus st) ck

/-- ACC is in one of the three forms of 41_frame_decoder.md R112: empty, `[AA]`, or a magic-led partial candidate
shorter than its kind's length (10_state.md R23). -/
def accForm (A : List Byte) : Bool :=
  A == [] || A == [0xAA] ||
    match magicAt A 0 with
    | some k => A.length < k.len
    | none => false

/-- No bank holds more than N_SUB entries (R25). -/
def banksFit (t : SubTab) : Bool :=
  t.cs.length ≤ Config.nSub && t.ga.length ≤ Config.nSub && t.ra.length ≤ Config.nSub

/-- A hung delivery: the unit is running, the candidate is gone from ACC, and the delivery's event is the last of the
trace (R154, R157, R105). -/
def hangForm (s : State) : Bool :=
  match s.inFlight with
  | none => true
  | some d =>
    s.run == .running && s.acc == [] && s.trace.getLast? == some (.deliver d.kind d.index d.subId d.value)

/-- The invariant of the machine between steps: ACC's form (R23, R112), the banks' capacity (R25), bytes held only while
running (R172, R200), and the form of a hung delivery. -/
def State.inv (s : State) : Bool :=
  accForm s.acc && banksFit s.subtab && (s.run == .running || s.acc == []) && hangForm s

/-- The invariant as a proposition. -/
abbrev State.Inv (s : State) : Prop := s.inv = true

/-- The unit accepts bytes: running, and no delivery hangs (R91, R172). -/
abbrev State.Accepts (s : State) : Prop := s.run = .running ∧ s.inFlight = none

/-- Nothing of a candidate is held: DEC is IDLE or GOT_AA (R112). -/
abbrev State.Between (s : State) : Prop := s.acc = [] ∨ s.acc = [0xAA]

/-- The outcome of the delivery at index `j`, to subscriber `id`, of a publish that begins in state `s` (R156): each
delivery makes one draw. -/
def outcomeAt (s : State) (j : Nat) (id : SubId) : SubOutcome :=
  drawOutcome { s with drawCount := s.drawCount + j } id

/-- The events of the deliveries of `v` to the entries `L` of a bank from index `j` on, none of which hangs: a DELIVER
for each entry, followed by a SUB_FAULT where its outcome is FAULT (R154, R156). -/
def deliveryEvents (k : Kind) (v : Value) (s : State) (j : Nat) (L : List SubId) : List Event :=
  match L with
  | [] => []
  | id :: rest =>
    .deliver k j id v ::
      ((if outcomeAt s j id = .fault then [.subFault k j id] else []) ++ deliveryEvents k v s (j + 1) rest)

/-- No magic occurs in the bytes (R69, R116). -/
abbrev MagicFree (A : List Byte) : Prop := firstMagic A = none

/-- The source's chunk steps applied in turn (R115). -/
def chunkSteps (run : Executor) : List (List Byte) → State → Host.Outcome State Fault Refusal
  | [], s => .next s
  | c :: cs, s =>
    match chunkStep run c s with
    | .next s' => chunkSteps run cs s'
    | .fault r => .fault r
    | .refused r => .refused r

/-- The frames published one after another (R119): each with all its deliveries before the next. -/
def publishAll : List (Kind × Value) → State → State
  | [], s => s
  | (k, v) :: rest, s => publishAll rest (publish k v s)

/-- Everything of the PFDD that a subscriber must not be able to change is equal in the two states (R156, R158): the
record of R20. -/
def SameRecord (s t : State) : Prop :=
  s.run = t.run ∧ s.acc = t.acc ∧ s.crcErrCnt = t.crcErrCnt ∧ s.subtab = t.subtab

/-- The events of a trace that are not a subscriber's failure. -/
def withoutFaults (es : List Event) : List Event :=
  es.filter (fun e => match e with
    | .subFault _ _ _ => false
    | .frameOk _ _ => true
    | .deliver _ _ _ _ => true
    | .crcDrop _ _ _ => true
    | .subReject _ _ _ => true
    | .started => true
    | .startFailed => true
    | .reset => true
    | .refused _ => true)

/-- Whether an event is a checksum drop (R107). -/
def Event.isDrop : Event → Bool
  | .crcDrop _ _ _ => true
  | .frameOk _ _ => false
  | .deliver _ _ _ _ => false
  | .subFault _ _ _ => false
  | .subReject _ _ _ => false
  | .started => false
  | .startFailed => false
  | .reset => false
  | .refused _ => false

/-- Whether an event ends a candidate: accepted or dropped (R107, R108). -/
def Event.endsCandidate : Event → Bool
  | .crcDrop _ _ _ => true
  | .frameOk _ _ => true
  | .deliver _ _ _ _ => false
  | .subFault _ _ _ => false
  | .subReject _ _ _ => false
  | .started => false
  | .startFailed => false
  | .reset => false
  | .refused _ => false

/-- Whether an operation is refused in a RUN state (the table of R175, with R173's register numbers and R92's chunk of
at least one byte). -/
def refusedIn (op : HostOp) (r : RunState) : Bool :=
  match op with
  | .pushByte _ => r != .running
  | .pushChunk c => r != .running && c != []
  | .start _ => r != .stopped
  | .readReg n => 2 < n
  | .subscribe _ _ => false
  | .reset => false
  | .setOutcome _ _ => false
  | .scriptDefaults => false

end Sys2Proof.Machine
end

