-- ==== Sys2Proof/Laws/Step.lean ====
section
/-! SUPPORT. The byte input step by step: the executor the step uses is the one the outbound meanings use, what an
attempt finds in each form of the accumulator, and what one PUSH_BYTE then does. -/

namespace Sys2Proof.Machine

/-- The step's executor is the decoder's call of the meanings. -/
theorem execCandidate_eq : execCandidate = runCandidate := by
  funext k F s
  cases k <;> rfl

/-! ## The inbound frames under R61 -/

/-- A ControlStatus has two unparsed bytes, u0 and u1 (R62, R135). -/
theorem cs_eq_csFrame (pre : Bytes Kind.cs.preBytes) (post : Bytes Kind.cs.postBytes) :
    ∃ u0 u1, ∀ smp ck, Instr.cs pre post smp ck = csFrame u0 u1 smp ck := by
  obtain ⟨u0, u1, h⟩ := List.length_eq_two.1 pre.length_eq
  have hpre : pre = unparsedCs u0 u1 := Bytes.eq_of_list h
  have hpost : post = noBytes .cs := Bytes.eq_of_list (post.list_eq_nil rfl)
  exact ⟨u0, u1, fun smp ck => by rw [hpre, hpost, csFrame]⟩

/-- A GainsAck has no unparsed byte (R63). -/
theorem ga_eq_gaFrame (f : Framed .ga Gains) (ck : Bits16) : Instr.ga f ck = gaFrame f.fields ck := by
  obtain ⟨pre, g, post⟩ := f
  have hpre : pre = (framedGains g).pre := Bytes.eq_of_list (pre.list_eq_nil rfl)
  have hpost : post = noBytes .ga := Bytes.eq_of_list (post.list_eq_nil rfl)
  rw [hpre, hpost]; rfl

/-- A ResetAck has no unparsed byte (R64). -/
theorem ra_eq_raFrame (f : Framed .ra Byte) (ck : Bits16) : Instr.ra f ck = raFrame f.fields ck := by
  obtain ⟨pre, st, post⟩ := f
  have hpre : pre = (framedStatus st).pre := Bytes.eq_of_list (pre.list_eq_nil rfl)
  have hpost : post = noBytes .ra := Bytes.eq_of_list (post.list_eq_nil rfl)
  rw [hpre, hpost]; rfl

/-! ## Attempts -/

@[simp] theorem attempt_nil : attempt [] = .stop .noMagic [] := rfl

/-- WAIT (R104): a magic-led candidate that is too short stays. -/
theorem attempt_short {A : List Byte} {k : Kind} (hm : magicAt A 0 = some k) (hl : A.length < k.len) :
    attempt A = .stop .truncated A := by
  simp [attempt, firstMagic_of_magicAt hm, hl]

/-- EXTRACT (R105): a magic-led accumulator of exactly the kind's length is the candidate. -/
theorem attempt_exact {A : List Byte} {k : Kind} (hm : magicAt A 0 = some k) (hl : A.length = k.len) :
    attempt A = .candidate k A [] := by
  simp [attempt, firstMagic_of_magicAt hm, ← hl]

/-- NO_MAGIC's retention under R61 (R102, D3): a final AA alone. -/
theorem retained_eq (A : List Byte) : retained A = if A.getLast? = some 0xAA then [0xAA] else [] := by
  unfold retained
  cases A.getLast? with
  | none => rfl
  | some b =>
    rw [Option.toList_some, List.filter_singleton, startsMagic_eq]
    by_cases h : b = 0xAA
    · simp [h]
    · rw [if_neg (by simpa using h), beq_eq_false_iff_ne.2 h, cond_false]

/-! ## DEC on the three forms of R112 -/

@[simp] theorem decOf_nil : decOf [] = .idle := rfl
@[simp] theorem decOf_AA : decOf [0xAA#8] = .gotAA := rfl

/-- A magic-led accumulator collects its kind (R112). -/
theorem decOf_of_magicAt {A : List Byte} {k : Kind} (h : magicAt A 0 = some k) : decOf A = .collect k A.length := by
  simp [decOf, h]

/-! ## Drains -/

/-- A drain whose first attempt stops keeps what that attempt keeps. -/
theorem drain_stop (run : Executor) (s : State) {why : Condition} {A : List Byte} (h : attempt s.acc = .stop why A) :
    drain run s = .next { s with acc := A } := by
  simp [drain, drainFuel, h]

/-- A drain on an empty accumulator changes nothing (R93, R102). -/
theorem drainFuel_nil (run : Executor) (n : Nat) (s : State) (h : s.acc = []) : drainFuel run n s = .next s := by
  cases n with
  | zero => rfl
  | succ n =>
    have hs : { s with acc := ([] : List Byte) } = s := by rw [← h]
    simp [drainFuel, h, hs]

/-- A drain whose candidate leaves an empty accumulator ends with it, hung or not. -/
theorem drainFuel_candidate (run : Executor) (n : Nat) (s s' : State) {k : Kind} {F rest : List Byte}
    (ha : attempt s.acc = .candidate k F rest) (hr : run k F { s with acc := rest } = .next s') (he : s'.acc = []) :
    drainFuel run (n + 1) s = .next s' := by
  by_cases hh : s'.inFlight.isSome <;> simp [drainFuel, ha, hr, hh, drainFuel_nil run n s' he]

/-- A drain on a complete candidate runs it; the second attempt finds nothing (R113, last row). -/
theorem drain_exact (s : State) {k : Kind} (hm : magicAt s.acc 0 = some k) (hl : s.acc.length = k.len)
    (hf : s.inFlight = none) : drain runCandidate s = runCandidate k s.acc { s with acc := [] } := by
  obtain ⟨v, -, hv⟩ := runCandidate_eq_check k s.acc { s with acc := [] } hl hm
  rw [checkCandidate_eq k s.acc v { s with acc := [] } hf] at hv
  rw [hv]
  exact drainFuel_candidate runCandidate _ s _ (attempt_exact hm hl) hv (by split <;> simp)

/-! ## One PUSH_BYTE -/

theorem pushByte_accepts (run : Executor) (b : Byte) (s : State) (h : s.Accepts) :
    pushByte run b s = drain run { s with acc := s.acc ++ [b] } := by
  simp [pushByte, h.1, h.2]

/-- A byte into a candidate that stays short is kept unexamined (R113, R122). -/
theorem pushByte_collect (run : Executor) (b : Byte) (s : State) {k : Kind} (h : s.Accepts)
    (hm : magicAt s.acc 0 = some k) (hl : s.acc.length + 1 < k.len) :
    pushByte run b s = .next { s with acc := s.acc ++ [b] } := by
  rw [pushByte_accepts run b s h]
  exact drain_stop run _ (attempt_short (magicAt_zero_append hm [b]) (by simpa using hl))

/-- The byte that completes a candidate runs it, with nothing left of it (R113, R114). -/
theorem pushByte_complete (b : Byte) (s : State) {k : Kind} (h : s.Accepts) (hm : magicAt s.acc 0 = some k)
    (hl : s.acc.length + 1 = k.len) :
    pushByte runCandidate b s = runCandidate k (s.acc ++ [b]) { s with acc := [] } := by
  rw [pushByte_accepts runCandidate b s h]
  exact drain_exact { s with acc := s.acc ++ [b] } (magicAt_zero_append hm [b]) (by simpa using hl) h.2

/-! ## Sequences of bytes -/

theorem pushBytes_cons (run : Executor) (b : Byte) (bs : List Byte) {s t : State} (h : pushByte run b s = .next t)
    (ht : t.inFlight = none) : pushBytes run (b :: bs) s = pushBytes run bs t := by
  simp [pushBytes, h, ht]

/-- Bytes pushed in two parts, where the first part does not hang (R92). -/
theorem pushBytes_append (run : Executor) (a b : List Byte) {s t : State} (h : pushBytes run a s = .next t)
    (ht : t.inFlight = none) : pushBytes run (a ++ b) s = pushBytes run b t := by
  induction a generalizing s with
  | nil => cases h; rfl
  | cons x a ih =>
    simp only [pushBytes, List.cons_append] at h ⊢
    cases hp : pushByte run x s with
    | next s' =>
      simp only [hp] at h ⊢
      by_cases hf : s'.inFlight.isSome
      · rw [if_pos hf] at h
        cases h
        rw [holdBack_inFlight] at ht
        simp [ht] at hf
      · rw [if_neg hf] at h ⊢
        exact ih h
    | fault r => simp [hp] at h
    | refused r => simp [hp] at h

/-! ## One step -/

/-- A step on a cycle of one operation runs it, the operation taken (R46). -/
theorem step_single {s : State} {op : HostOp} {rest : List (List HostOp)} (hf : s.inFlight = none)
    (hp : s.pending = [op] :: rest) : step s = runOp op { s with pending := rest } := by
  simp [step, stepMachine, hf, hp, selectOp, stillPending]

end Sys2Proof.Machine
end

