-- ==== Sys2Proof/Certificates/Slice0/Obligations.lean ====
section
/-! DEFINITION. The statements for the provers: what the PFDD does, from the spec's numbered rules. Each says which rule
of spec/ it formalises; none is about a program. -/

open Sys2Proof Sys2Proof.Machine

/-! ## Encoding -/

/-- Decoding the bytes of any packet, whatever follows them, gives the packet back with what follows: no bit of an
encoding is dropped (30_encoding.md R62 to R64, R75 to R77, R81). -/
def Obligations.DecodeOfEncode : Prop :=
  ∀ (i : Instr) (rest : List Byte), decode (encode i ++ rest) = .ok (i, rest)

/-- What decodes is exactly the encoding of what it decodes to, followed by the bytes left over (R81, R71). -/
def Obligations.EncodeOfDecode : Prop :=
  ∀ (bs : List Byte) (i : Instr) (rest : List Byte), decode bs = .ok (i, rest) → encode i ++ rest = bs

/-- R140: for every kind and every value of its type (and every u0, u1 of a ControlStatus), the reference encoder's
checksum matches its trailer, the decode of its bytes is the value, and pushing the bytes from IDLE emits FRAME_OK of the
value. -/
def Obligations.RoundTripOfEveryKind : Prop :=
  ∀ (u0 u1 : Byte) (smp : Sample) (g : Gains) (st : Byte) (cs ga ra : List Byte),
    cs = encCs (unparsedCs u0 u1) (noBytes .cs) smp → ga = encGa (framedGains g) → ra = encRa (framedStatus st) →
    (ckOf cs = trailerOf cs ∧ ckOf ga = trailerOf ga ∧ ckOf ra = trailerOf ra) ∧
    (decodeCs cs = smp ∧ decodeGa ga = g ∧ decodeRa ra = st) ∧
    ∀ s : State, s.Accepts → s.acc = [] →
      (∃ t, pushBytes execCandidate cs s = .next t ∧ (s.trace ++ [.frameOk .cs (.sample smp)]) <+: t.trace) ∧
      (∃ t, pushBytes execCandidate ga s = .next t ∧ (s.trace ++ [.frameOk .ga (.gains g)]) <+: t.trace) ∧
      (∃ t, pushBytes execCandidate ra s = .next t ∧ (s.trace ++ [.frameOk .ra (.status st)]) <+: t.trace)

/-- The reference encoders, written with MemWrite as R137 and R138 write them, build the encoding of the frame with the
trailer its sender computes, and ENC_RA is `AA EE st st 00` (R139). The encodings, which take magics, prefix and length
from KIND_TABLE, are the frames of R62 to R64 byte for byte. -/
def Obligations.ReferenceEncodersBuildSealedFrames : Prop :=
  ∀ (pre : Bytes Kind.cs.preBytes) (post : Bytes Kind.cs.postBytes) (smp : Sample) (g : Framed .ga Gains)
    (st : Framed .ra Byte) (ck : Bits16),
    (encCs pre post smp = encode (Instr.sealed (.cs pre post smp 0)) ∧ encGa g = encode (Instr.sealed (.ga g 0)) ∧
      encRa st = encode (Instr.sealed (.ra st 0)) ∧ encRa st = [0xAA, 0xEE, st.fields, st.fields, 0x00]) ∧
    (∃ u0 u1, pre = unparsedCs u0 u1 ∧
      encode (.cs pre post smp ck) = [0xAA, 0xCC, u0, u1] ++ sampleBytes smp ++ leBytes 2 ck.toNat) ∧
    encode (.ga g ck) = [0xAA, 0xDD] ++ bytes32x5 g.fields.gains ++ leBytes 2 ck.toNat ∧
    encode (.ra st ck) = [0xAA, 0xEE, st.fields] ++ leBytes 2 ck.toNat

/-- Words written out from the spec's encodings decode to the packets they stand for (95_test_vectors.md V-DEC-8,
V-DEC-6, V-COD-2), and no two rows of the opcode table select the same bytes (R81). -/
def Obligations.SpecWordsDecodeAndRowsAreDisjoint : Prop :=
  decode [0xAA, 0xEE, 0x05, 0x06, 0x00] = .ok (raFrame 0x05 0x0006, []) ∧
  decode [0xAA, 0x55, 0x03, 0x10, 0x13, 0x00] = .ok (.resetCmd 0x10 0x0013, []) ∧
  decode [0xAA, 0x55, 0x01, 0x07, 0x10, 0x00, 0xF0, 0xFF, 0x00, 0x00, 0x00, 0x00, 0x03, 0x00, 0x0A, 0x02] =
    .ok (.joystickState 0x07 0x0010 0xFFF0 0 0 3 0x020A, []) ∧
  decode [0xAA, 0xDD, 0x01, 0x00, 0xC0, 0x7F, 0x00, 0x00, 0x00, 0x80, 0x00, 0x00, 0x80, 0x7F, 0x01, 0x00, 0x00, 0x00,
      0x00, 0x00, 0x80, 0xFF, 0x3F, 0x04] =
    .ok (gaFrame ⟨⟨0x7FC00001, 0x80000000, 0x7F800000, 0x00000001, 0xFF800000⟩⟩ 0x043F, []) ∧
  ∀ bs : List Byte, ∀ r ∈ opTable, ∀ r' ∈ opTable, r.selects bs = true → r'.selects bs = true → r = r'

/-- R69: a magic occurs at offset i exactly when two bytes are held there, the first is AA and the second is CC, DD or
EE; the second byte alone selects the kind. -/
def Obligations.MagicOccursExactly : Prop :=
  ∀ (A : List Byte) (i : Nat) (k : Kind),
    magicAt A i = some k ↔
      i + 1 < A.length ∧ byteAt A i = 0xAA ∧
        byteAt A (i + 1) = (match k with | .cs => 0xCC | .ga => 0xDD | .ra => 0xEE)

/-- The decoder tells a frame's kind and length from its first two bytes alone: 74, 24 or 5 bytes, no more and no less
(R71, R72). -/
def Obligations.LengthFromFirstTwoBytes : Prop :=
  (Kind.cs.len = 74 ∧ Kind.ga.len = 24 ∧ Kind.ra.len = 5) ∧
  ∀ (bs : List Byte) (k : Kind), magicAt bs 0 = some k →
    decode bs =
      if bs.length < k.len then .error .truncated else .ok (frameInstr k (bs.take k.len), bs.drop k.len)

/-- R70: any two bytes other than the three magics start no frame, and the decoder discards the first of them: from
IDLE, only a final AA is held after them. -/
def Obligations.NotAFrameIsDiscarded : Prop :=
  ∀ (b0 b1 : Byte) (s : State), ¬(b0 = 0xAA ∧ (b1 = 0xCC ∨ b1 = 0xDD ∨ b1 = 0xEE)) → s.Accepts → s.acc = [] →
    pushBytes execCandidate [b0, b1] s = .next { s with acc := if b1 = 0xAA then [0xAA] else [] }

/-! ## Checksum and fields -/

/-- R67: for a candidate of kind k, ck(F) is the sum of the bytes at offsets 2 to LEN[k] - 3, each zero-extended, mod
65536; accumulating in 16 bits with wrap-around gives the same. -/
def Obligations.ChecksumIsTheByteSum : Prop :=
  ∀ (k : Kind) (F : List Byte), F.length = k.len →
    (ckOf F).toNat = ((List.range (k.len - 4)).map (fun i => (byteAt F (i + 2)).toNat)).sum % 65536 ∧
    ckOf F = ((List.range (k.len - 4)).map (fun i => (byteAt F (i + 2)).setWidth 16)).foldl (· + ·) 0

/-- R68: the modulus never takes effect for an inbound frame; the largest sums are 0x45BA, 0x13EC and 0x00FF, and each is
reached; a trailer above its kind's maximum never matches; every ResetAck that matches is AA EE s s 00. -/
def Obligations.ChecksumRange : Prop :=
  (∀ k : Kind, ∃ F : List Byte, F.length = k.len ∧ magicAt F 0 = some k ∧
    byteSum (coveredBytes F) = (match k with | .cs => 0x45BA | .ga => 0x13EC | .ra => 0x00FF)) ∧
  ∀ (k : Kind) (F : List Byte), F.length = k.len → magicAt F 0 = some k →
    (ckOf F).toNat = byteSum (coveredBytes F) ∧
    byteSum (coveredBytes F) ≤ (match k with | .cs => 0x45BA | .ga => 0x13EC | .ra => 0x00FF) ∧
    ((match k with | .cs => 0x45BA | .ga => 0x13EC | .ra => 0x00FF) < (trailerOf F).toNat → ckOf F ≠ trailerOf F) ∧
    (k = .ra → ckOf F = trailerOf F → ∃ st : Byte, F = [0xAA, 0xEE, st, st, 0x00])

/-- A multi-byte field is read and written little-endian at its offset (00_scope.md R8, 20_memory.md R41, R44), and the
trailer is F[LEN-2] + 256 F[LEN-1] (R65). -/
def Obligations.FieldsAreLittleEndian : Prop :=
  (∀ (F : List Byte) (off n : Nat), off + n ≤ F.length →
    memRead F off n = ((List.range n).map (fun i => (byteAt F (off + i)).toNat * 2 ^ (8 * i))).sum) ∧
  (∀ (F : List Byte) (off n v j : Nat), off + n ≤ F.length →
    byteAt (memWrite F off n v) j =
      if off ≤ j ∧ j < off + n then BitVec.ofNat 8 (v / 2 ^ (8 * (j - off))) else byteAt F j) ∧
  (∀ F : List Byte, 2 ≤ F.length →
    (trailerOf F).toNat = (byteAt F (F.length - 2)).toNat + 256 * (byteAt F (F.length - 1)).toNat)

/-- R131, R132, R133: the fields of a candidate are the MemReads of the rules, whole and unsigned, every bit pattern
unchanged (R134). -/
def Obligations.InboundFieldsAreRead : Prop :=
  ∀ F : List Byte,
    ((decodeCs F).tick.toNat = memRead F 4 4 ∧ (decodeCs F).degree.toNat = memRead F 8 8 ∧
      (decodeCs F).cmX.toNat = memRead F 16 8 ∧ (decodeCs F).setspeed.toNat = memRead F 24 8 ∧
      (decodeCs F).reserved.toList.map BitVec.toNat = (List.range 5).map (fun i => memRead F (32 + 8 * i) 8)) ∧
    (decodeGa F).gains.toList.map BitVec.toNat = (List.range 5).map (fun i => memRead F (2 + 4 * i) 4) ∧
    decodeRa F = byteAt F 2

/-- R135: the two unparsed bytes of a ControlStatus are summed by the checksum and are otherwise ignored: two well-formed
frames that differ in them alone have the same effect. -/
def Obligations.UnparsedBytesAreSummedNotDelivered : Prop :=
  ∀ (u0 u1 w0 w1 : Byte) (smp : Sample) (ck ck' : Bits16) (s : State),
    (csFrame u0 u1 smp ck).senderCk =
      (csFrame 0 0 smp ck).senderCk + u0.setWidth 16 + u1.setWidth 16 ∧
    ((csFrame u0 u1 smp ck).WellFormed → (csFrame w0 w1 smp ck').WellFormed →
      exec (csFrame u0 u1 smp ck) s = exec (csFrame w0 w1 smp ck') s)

/-! ## The search and the attempt -/

/-- R100, R101, R73: firstMagic is the least offset at which a magic occurs, whatever its kind, NONE where none occurs;
and no magic begins at the second byte of another. -/
def Obligations.FirstMagicIsTheLeast : Prop :=
  ∀ A : List Byte,
    (∀ (p : Nat) (k : Kind), firstMagic A = some (p, k) ↔ magicAt A p = some k ∧ ∀ j < p, magicAt A j = none) ∧
    (firstMagic A = none ↔ ∀ j, magicAt A j = none) ∧
    (∀ (i : Nat) (k : Kind), magicAt A i = some k → magicAt A (i + 1) = none)

/-- R102 to R105: with no magic an attempt stops and keeps a final AA alone; else it discards the bytes before the magic,
stops if fewer than LEN[k] bytes are held, and else removes exactly LEN[k] bytes as the candidate. -/
def Obligations.AttemptFollowsItsSteps : Prop :=
  ∀ A : List Byte,
    (firstMagic A = none → attempt A = .stop .noMagic (if A.getLast? = some 0xAA then [0xAA] else [])) ∧
    (∀ (p : Nat) (k : Kind), firstMagic A = some (p, k) →
      (A.length - p < k.len → attempt A = .stop .truncated (A.drop p)) ∧
      (k.len ≤ A.length - p →
        attempt A = .candidate k ((A.drop p).take k.len) ((A.drop p).drop k.len)))

/-- A candidate is exactly LEN[k] bytes, begins with its kind's magic, and is what stood after discarded bytes in which
no magic begins (R103, R105). -/
def Obligations.CandidateIsMagicLed : Prop :=
  ∀ (A : List Byte) (k : Kind) (F rest : List Byte), attempt A = .candidate k F rest →
    F.length = k.len ∧ magicAt F 0 = some k ∧
    ∃ garbage : List Byte, A = garbage ++ F ++ rest ∧ ∀ j < garbage.length, magicAt A j = none

/-- R110: a drain makes at most floor(|ACC| / 5) + 1 attempts: that much fuel already gives its result, and more changes
nothing. -/
def Obligations.DrainIsBounded : Prop :=
  ∀ (s : State) (n : Nat), s.acc.length / 5 + 1 ≤ n → drainFuel execCandidate n s = drain execCandidate s

/-! ## The inbound frames -/

/-- R108: a CS, GA or RA frame whose checksum matches is decoded and published: it completes, from every state in which
no delivery hangs. -/
def Obligations.MatchingFrameIsPublished : Prop :=
  ∀ s : State, s.inFlight = none →
    (∀ (pre : Bytes Kind.cs.preBytes) (post : Bytes Kind.cs.postBytes) (smp : Sample) (ck : Bits16),
      (Instr.cs pre post smp ck).WellFormed → exec (.cs pre post smp ck) s = .next (publish .cs (.sample smp) s)) ∧
    (∀ (g : Framed .ga Gains) (ck : Bits16), (Instr.ga g ck).WellFormed →
      exec (.ga g ck) s = .next (publish .ga (.gains g.fields) s)) ∧
    (∀ (st : Framed .ra Byte) (ck : Bits16), (Instr.ra st ck).WellFormed →
      exec (.ra st ck) s = .next (publish .ra (.status st.fields) s))

/-- R107: an inbound frame whose checksum does not match is dropped: the counter goes up by 1 mod 2^32, CRC_DROP is
emitted with the received and the computed checksum, and nothing else changes. -/
def Obligations.MismatchedFrameIsDropped : Prop :=
  ∀ (i : Instr) (k : Kind) (s : State), i.kind = some k → ¬i.WellFormed → s.inFlight = none →
    exec i s = .next { s with
      crcErrCnt := s.crcErrCnt + 1, trace := s.trace ++ [.crcDrop k i.ck i.senderCk] }

/-- R159: a validated frame of a kind with no subscriber is emitted as FRAME_OK and then dropped: nothing else
changes. -/
def Obligations.FrameWithNoSubscriber : Prop :=
  ∀ (i : Instr) (k : Kind) (v : Value) (s : State), i.kind = some k → i.value = some v → i.WellFormed →
    s.inFlight = none → s.subtab.bank k = [] →
    exec i s = .next { s with trace := s.trace ++ [.frameOk k v] }

/-- The frame of CS, GA and RA (R107, R108, R154): the run state, the accumulator, the subscriber table, what is pending,
the latest answer and the source of outcomes are unchanged; the counter changes only by the drop; and the trace only
grows, by one CRC_DROP of its kind alone, or by the FRAME_OK of its own value followed by deliveries and faults of its
kind and value alone. -/
def Obligations.InboundLeavesTheRest : Prop :=
  ∀ (i : Instr) (k : Kind) (s t : State), i.kind = some k → exec i s = .next t →
    (t.run = s.run ∧ t.acc = s.acc ∧ t.subtab = s.subtab ∧ t.pending = s.pending ∧ t.answer = s.answer ∧
      t.draws = s.draws) ∧
    (i.WellFormed → t.crcErrCnt = s.crcErrCnt) ∧
    (¬i.WellFormed → t.crcErrCnt = s.crcErrCnt + 1 ∧ t.inFlight = none ∧ t.drawCount = s.drawCount) ∧
    ∃ es, t.trace = s.trace ++ es ∧
      (¬i.WellFormed → es = [.crcDrop k i.ck i.senderCk]) ∧
      (i.WellFormed → ∃ v es', i.value = some v ∧ es = .frameOk k v :: es' ∧
        ∀ e ∈ es', (∃ j id, e = .deliver k j id v) ∨ (∃ j id, e = .subFault k j id))

/-! ## The outbound packets on the receive stream -/

/-- R79: JOYSTICK_STATE, SET_GAINS and RESET_CMD are garbage. Where the unit accepts bytes, nothing of a candidate is
held and no false magic stands in the packet, it completes with no event and nothing changed, but that a final AA is
retained (R102). -/
def Obligations.OutboundIsGarbage : Prop :=
  ∀ (i : Instr) (s : State), i.kind = none → s.Accepts → s.Between → MagicFree (encode i) →
    exec i s = .next { s with acc := if (encode i).getLast? = some 0xAA then [0xAA] else [] }

/-- JOYSTICK_STATE, SET_GAINS and RESET_CMD offered while the unit does not run: each of their bytes is refused, and
nothing else changes (R92, R172). -/
def Obligations.OutboundIsRefusedUnlessRunning : Prop :=
  ∀ (i : Instr) (s : State), i.kind = none → s.inFlight = none → s.run ≠ .running →
    exec i s = .next { s with trace := s.trace ++ List.replicate (encode i).length (.refused .pushByte) }

/-- JOYSTICK_STATE, SET_GAINS and RESET_CMD complete from every state in which no delivery hangs; and whatever they meet
(garbage, a false magic, a candidate being collected), the run state, the subscriber table, the latest answer and the
source of outcomes are unchanged, and the trace only grows: RESET_CMD is data and does not reset the PFDD (R79). -/
def Obligations.OutboundLeavesTheRest : Prop :=
  ∀ (i : Instr) (s : State), i.kind = none → s.inFlight = none →
    ∃ t, exec i s = .next t ∧ t.run = s.run ∧ t.subtab = s.subtab ∧ t.answer = s.answer ∧ t.draws = s.draws ∧
      s.trace <+: t.trace

/-- R122: in COLLECT(k, n) no byte is searched for a magic: bytes that do not complete the candidate are only appended,
whatever they hold; and so an outbound packet arriving there is taken into the candidate. -/
def Obligations.NoSearchInsideACandidate : Prop :=
  ∀ (s : State) (k : Kind), s.Accepts → magicAt s.acc 0 = some k →
    (∀ c : List Byte, s.acc.length + c.length < k.len →
      pushBytes execCandidate c s = .next { s with acc := s.acc ++ c }) ∧
    (∀ i : Instr, i.kind = none → s.acc.length + (encode i).length < k.len →
      exec i s = .next { s with acc := s.acc ++ encode i })

/-- R121: from IDLE or GOT_AA a magic pattern of kind k locks the decoder: the next LEN[k] - 2 bytes are taken
unexamined, and the candidate so formed runs like any frame, a real one or not. -/
def Obligations.MagicPatternLocks : Prop :=
  ∀ (s : State) (k : Kind) (b : Byte) (c : List Byte), s.Accepts → s.Between → kindOf b = some k →
    (c.length + 2 < k.len →
      pushBytes execCandidate (0xAA :: b :: c) s = .next { s with acc := 0xAA :: b :: c }) ∧
    (c.length + 2 = k.len →
      pushBytes execCandidate (0xAA :: b :: c) s = exec (frameInstr k (0xAA :: b :: c)) { s with acc := [] })

/-! ## The dispatcher -/

/-- R154, R156: a publish in which no delivery hangs emits FRAME_OK, then in registration order one DELIVER for each
entry of the kind's bank, each followed by SUB_FAULT where its outcome is FAULT; a FAULT stops no later delivery; every
draw is used once and no register changes. Every source of outcomes is covered, the free one included. -/
def Obligations.PublishDeliversInOrder : Prop :=
  ∀ (k : Kind) (v : Value) (s : State),
    (∀ j id, (s.subtab.bank k)[j]? = some id → outcomeAt s j id ≠ .hang) →
    publish k v s = { s with
      trace := s.trace ++ .frameOk k v :: deliveryEvents k v s 0 (s.subtab.bank k),
      drawCount := s.drawCount + (s.subtab.bank k).length }

/-- R157: the first delivery whose outcome is HANG is the last: its DELIVER event is emitted, it stays on the port (the
model's field for it: log entry 3), and no later subscriber is offered the value; and where a byte's delivery hangs, no
later byte of its chunk is accepted (that these stay offered is log entry 3 too). -/
def Obligations.HangStopsThePublish : Prop :=
  (∀ (b : Byte) (bs : List Byte) (s t : State), runOp (.pushByte b) s = .next t → t.inFlight ≠ none →
    runOp (.pushChunk (b :: bs)) s =
      .next { t with pending := if bs = [] then t.pending else [.pushChunk bs] :: t.pending }) ∧
  ∀ (k : Kind) (v : Value) (s : State) (before after : List SubId) (id : SubId),
    s.subtab.bank k = before ++ id :: after →
    (∀ j id', before[j]? = some id' → outcomeAt s j id' ≠ .hang) → outcomeAt s before.length id = .hang →
    publish k v s = { s with
      trace := s.trace ++ .frameOk k v :: (deliveryEvents k v s 0 before ++ [.deliver k before.length id v]),
      drawCount := s.drawCount + before.length + 1,
      inFlight := some { kind := k, index := before.length, subId := id, value := v } }

/-- R157: from a state in which a delivery hangs there is no step, whatever is offered, and no instruction runs (the fault
is the model's way to say so: log entry 3). The handshake levels between steps: in_ready holds exactly when RUN is RUNNING
and no PUSH_BYTE is in progress (R91), dlv_valid exactly when a delivery stands on the port (R155). -/
def Obligations.HungMachineHasNoStep : Prop :=
  ∀ s : State,
    (∀ d, s.inFlight = some d → step s = .fault .deliveryHung ∧ ∀ i : Instr, exec i s = .fault .deliveryHung) ∧
    (inReady s = true ↔ s.run = .running ∧ s.inFlight = none) ∧
    (dlvValid s = true ↔ ∃ d, s.inFlight = some d)

/-- R156: whatever the subscribers do, OK, FAULT or HANG, a publish changes no state of the PFDD's record: RUN, ACC,
CRC_ERR_CNT and SUBTAB are unaffected, and a subscriber that fails stays registered. -/
def Obligations.SubscriberFailureChangesNoState : Prop :=
  ∀ (k : Kind) (v : Value) (s : State), SameRecord (publish k v s) s ∧ (publish k v s).pending = s.pending

/-- R158, R161: every delivery of one frame carries the same value and kind, and goes to the subscriber registered for
that kind at that index; a frame never reaches a subscriber of another kind. -/
def Obligations.DeliveriesGoToTheKindsSubscribers : Prop :=
  ∀ (k : Kind) (v : Value) (s : State) (es : List Event), (publish k v s).trace = s.trace ++ es →
    ∀ (k' : Kind) (j : Nat) (id : SubId) (v' : Value), .deliver k' j id v' ∈ es →
      k' = k ∧ v' = v ∧ (s.subtab.bank k)[j]? = some id

/-- R151, R152, R153: SUBSCRIBE appends the id to the bank of the kind with that code and answers OK; into a full bank it
is refused with FULL, and with code 3 with BAD_KIND, and then no table changes; in every RUN state. The field that holds
the answer is the model's (log entry 2); so is FULL for a bank of more than 8 entries, which no run reaches, where R151
tests for exactly 8 (log entry 13). -/
def Obligations.SubscribeRegistersOrRejects : Prop :=
  ∀ (kc : BitVec 2) (id : SubId) (s : State),
    (kc = 3 → runOp (.subscribe kc id) s =
      .next { s with trace := s.trace ++ [.subReject kc id .badKind], answer := some .rejected }) ∧
    (∀ k : Kind, k.kcode = kc →
      (8 ≤ (s.subtab.bank k).length → runOp (.subscribe kc id) s =
        .next { s with trace := s.trace ++ [.subReject kc id .full], answer := some .rejected }) ∧
      ((s.subtab.bank k).length < 8 → ∃ t, runOp (.subscribe kc id) s = .next t ∧
        t = { s with subtab := t.subtab, answer := some .accepted } ∧
        t.subtab.bank k = s.subtab.bank k ++ [id] ∧ ∀ k', k' ≠ k → t.subtab.bank k' = s.subtab.bank k'))

/-- The bench's lines about outcomes (R80; their place in the state is the model's, log entry 4): a script starts with
every outcome OK; an OUTCOME line sets what every later delivery to that subscriber returns, and changes no other
subscriber's; neither changes the PFDD's record or the trace. -/
def Obligations.OutcomeLinesSetTheDraws : Prop :=
  ∀ s : State,
    (∃ t, runOp .scriptDefaults s = .next t ∧ SameRecord t s ∧ t.trace = s.trace ∧ ∀ id, drawOutcome t id = .ok) ∧
    (∀ (id : SubId) (o : SubOutcome), ∃ t, runOp (.setOutcome id o) s = .next t ∧ SameRecord t s ∧ t.trace = s.trace ∧
      (∀ n, drawOutcome { t with drawCount := n } id = o) ∧
      (s.draws ≠ .free → ∀ id', id' ≠ id → drawOutcome t id' = drawOutcome s id'))

/-! ## Who writes what -/

/-- R25, R163: the only writes of SUBTAB are an append by SUBSCRIBE and a clear by RESET; there is no removal. -/
def Obligations.SubtabIsWrittenOnlyBySubscribeAndReset : Prop :=
  ∀ (op : HostOp) (s t : State), runOp op s = .next t →
    t.subtab = s.subtab ∨ (op = .reset ∧ t.subtab = SubTab.empty) ∨
      ∃ kc id k, op = .subscribe kc id ∧ k.kcode = kc ∧ t.subtab = s.subtab.append k id

/-- R24: CRC_ERR_CNT goes up by 1 mod 2^32 for each candidate dropped, RESET clears it, and nothing else writes it. -/
def Obligations.CounterCountsTheDrops : Prop :=
  ∀ (op : HostOp) (s t : State), runOp op s = .next t →
    ∃ es, t.trace = s.trace ++ es ∧
      (op = .reset → t.crcErrCnt = 0) ∧
      (op ≠ .reset → t.crcErrCnt = s.crcErrCnt + BitVec.ofNat 32 (es.countP Event.isDrop))

/-- R26, R171: RUN leaves STOPPED only by START, to RUNNING with the transport open and to FAILED without; RUNNING and
FAILED are left only by RESET, to STOPPED. -/
def Obligations.RunChangesOnlyByStartAndReset : Prop :=
  ∀ (op : HostOp) (s t : State), runOp op s = .next t →
    (op = .reset ∧ t.run = .stopped) ∨
    (op ≠ .reset ∧
      ((s.run = .stopped ∧ ((op = .start true ∧ t.run = .running) ∨ (op = .start false ∧ t.run = .failed))) ∨
       ((s.run ≠ .stopped ∨ ∀ o, op ≠ .start o) ∧ t.run = s.run)))

/-- R27, R48: a step only appends to the trace. -/
def Obligations.TraceOnlyGrows : Prop :=
  ∀ s t : State, step s = .next t → s.trace <+: t.trace

/-! ## Control and status -/

/-- R170, R171: START from STOPPED goes to RUNNING with STARTED, or, with the transport not open, to FAILED with
START_FAILED; otherwise it is refused; ACC, CRC_ERR_CNT and SUBTAB are unchanged. -/
def Obligations.StartRunsOrFails : Prop :=
  ∀ s : State,
    (s.run = .stopped →
      runOp (.start true) s = .next { s with run := .running, trace := s.trace ++ [.started] } ∧
      runOp (.start false) s = .next { s with run := .failed, trace := s.trace ++ [.startFailed] }) ∧
    (s.run ≠ .stopped → ∀ o, runOp (.start o) s = .next { s with trace := s.trace ++ [.refused .start] })

/-- R172: in STOPPED or FAILED a PUSH_BYTE is refused, with REFUSED(PUSH_BYTE) and no change of state. -/
def Obligations.InputIsRefusedUnlessRunning : Prop :=
  ∀ (b : Byte) (s : State), s.inFlight = none → s.run ≠ .running →
    runOp (.pushByte b) s = .next { s with trace := s.trace ++ [.refused .pushByte] }

/-- R29, R112: the fields of the status registers in every state that meets the invariant, and their reserved bits, which
read 0. Register 1 holds RUN, DEC, DEC_KIND and ACC_LEN, where ACC is in one of the three forms of R112 and DEC names it:
`[]` IDLE, `[AA]` GOT_AA, magic-led of kind k and shorter than its length COLLECT of k. Register 2 holds the entries of
each bank. -/
def Obligations.StatusRegisterFields : Prop :=
  ∀ s : State, s.Inv →
    (∃ dec decKind : Nat,
      (regStatus s).toNat =
        (match s.run with | .stopped => 0 | .running => 1 | .failed => 2) + 4 * dec + 16 * decKind + 64 * s.acc.length ∧
      ((s.acc = [] ∧ decOf s.acc = .idle ∧ dec = 0 ∧ decKind = 3) ∨
       (s.acc = [0xAA] ∧ decOf s.acc = .gotAA ∧ dec = 1 ∧ decKind = 3) ∨
       ∃ k : Kind, magicAt s.acc 0 = some k ∧ 2 ≤ s.acc.length ∧ s.acc.length < k.len ∧
         decOf s.acc = .collect k s.acc.length ∧ dec = 2 ∧ decKind = (match k with | .cs => 0 | .ga => 1 | .ra => 2))) ∧
    s.acc.length ≤ 74 ∧
    (regSubCnt s).toNat = s.subtab.cs.length + 16 * s.subtab.ga.length + 256 * s.subtab.ra.length ∧
    s.subtab.cs.length ≤ 8 ∧ s.subtab.ga.length ≤ 8 ∧ s.subtab.ra.length ≤ 8 ∧
    regCrcErr s = s.crcErrCnt

/-- R173, R174: READ_REG answers the register's value for 0, 1 and 2 and is refused above 2; it changes no architectural
state, and two reads with no step between them return the same value. The field that holds the answer is the model's (log
entry 2). -/
def Obligations.ReadRegHasNoSideEffect : Prop :=
  ∀ (s : State),
    (∀ n, 2 < n →
      runOp (.readReg n) s = .next { s with trace := s.trace ++ [.refused .readReg], answer := some .nothing }) ∧
    runOp (.readReg 0) s = .next { s with answer := some (.value s.crcErrCnt) } ∧
    runOp (.readReg 1) s = .next { s with answer := some (.value (regStatus s)) } ∧
    runOp (.readReg 2) s = .next { s with answer := some (.value (regSubCnt s)) } ∧
    (∀ n t, n ≤ 2 → runOp (.readReg n) s = .next t → runOp (.readReg n) t = .next t)

/-- R175: which operations are refused in which RUN state: an operation that completes emits a REFUSED event exactly
where the table refuses it. -/
def Obligations.AdmissionFollowsTheTable : Prop :=
  ∀ (op : HostOp) (s t : State), runOp op s = .next t →
    ∃ es, t.trace = s.trace ++ es ∧ ((∃ o, Event.refused o ∈ es) ↔ refusedIn op s.run = true)

/-- R200: RESET sets RUN, ACC, CRC_ERR_CNT and every bank to its reset value and emits RESET, in every RUN state;
registers 0, 1 and 2 then read 0, 0x30 and 0. -/
def Obligations.ResetRestoresTheRecord : Prop :=
  ∀ s : State, ∃ t, runOp .reset s = .next t ∧
    t = { s with run := .stopped, acc := [], crcErrCnt := 0, subtab := { cs := [], ga := [], ra := [] },
                 trace := s.trace ++ [.reset] } ∧
    regCrcErr t = 0 ∧ regStatus t = 0x30 ∧ regSubCnt t = 0

/-- R32, R202: the state after power-on, which is a RESET: RUN STOPPED, ACC empty, the counter 0, every bank empty; the
trace holds the RESET of power-on alone. -/
def Obligations.PowerOnState : Prop :=
  State.reset.run = .stopped ∧ State.reset.acc = [] ∧ State.reset.crcErrCnt = 0 ∧
  (∀ k : Kind, State.reset.subtab.bank k = []) ∧ State.reset.trace = [.reset] ∧ decOf State.reset.acc = .idle

/-- R189: of the operations of one cycle the one taken is of least rank (RESET, START, SUBSCRIBE, READ_REG, then
PUSH_BYTE), and the others stay offered; a RESET in the cycle of a PUSH_BYTE is taken first and leaves the byte
refused. That the refused byte is then no longer offered (`u.pending = rest`) is the model's choice (log entry 9): R189 has
the source offer it again, which is another `pending`. -/
def Obligations.CycleOrderIsResetFirst : Prop :=
  (∀ (ops others : List HostOp) (op : HostOp), selectOp ops = some (op, others) →
    (op :: others).Perm ops ∧ ∀ o ∈ ops, op.rank ≤ o.rank) ∧
  (∀ (b : Byte) (o : Bool) (kc : BitVec 2) (id : SubId) (n : Nat),
    HostOp.rank .reset < HostOp.rank (.start o) ∧ HostOp.rank (.start o) < HostOp.rank (.subscribe kc id) ∧
    HostOp.rank (.subscribe kc id) < HostOp.rank (.readReg n) ∧
    HostOp.rank (.readReg n) < HostOp.rank (.pushByte b)) ∧
  (∀ (b : Byte) (s : State) (rest : List (List HostOp)), s.inFlight = none →
    s.pending = [.pushByte b, .reset] :: rest →
    ∃ t u, step s = .next t ∧ t.run = .stopped ∧ t.acc = [] ∧ step t = .next u ∧
      u.trace = s.trace ++ [.reset, .refused .pushByte] ∧ u.pending = rest)

/-! ## Steps and decoding -/

/-- A step takes the operation R189 selects from the head cycle and runs it; the others of the cycle stay offered (R46;
the list of what is offered is the model's, log entry 1). The statements about `runOp` reach a run through this one. -/
def Obligations.StepRunsTheSelectedOperation : Prop :=
  ∀ (s : State) (ops others : List HostOp) (op : HostOp) (rest : List (List HostOp)),
    s.inFlight = none → s.pending = ops :: rest → selectOp ops = some (op, others) →
    step s = runOp op { s with pending := if others = [] then rest else others :: rest }

/-- The byte that completes a candidate: when the bytes held and the byte offered decode to an inbound frame, the step is
exec of that frame, at the state with the candidate removed and the byte taken (R90, R105, R113; the list of what is
offered is the model's, log entry 1). -/
def Obligations.StepRunsTheDecodedFrame : Prop :=
  ∀ (s : State) (b : Byte) (rest : List (List HostOp)) (i : Instr) (k : Kind),
    s.Accepts → s.pending = [.pushByte b] :: rest → i.kind = some k → decode (s.acc ++ [b]) = .ok (i, []) →
    step s = exec i { s with acc := [], pending := rest }

/-- A whole packet offered as a chunk. An inbound frame, from IDLE or GOT_AA, runs as exec of it with nothing left in the
accumulator: the byte-serial decoder is the frame's meaning (R92, R113, R140). An outbound packet runs as exec of it from
every state in which no delivery hangs. That a chunk is one step is the model's choice (log entry 10: R46 and R92 make each
byte a step), and so is the list of what is offered (log entry 1). -/
def Obligations.StepRunsTheWholePacket : Prop :=
  ∀ (s : State) (i : Instr) (rest : List (List HostOp)), s.pending = [.pushChunk (encode i)] :: rest →
    (∀ k, i.kind = some k → s.Accepts → s.Between → step s = exec i { s with acc := [], pending := rest }) ∧
    (i.kind = none → s.inFlight = none → step s = exec i { s with pending := rest })

/-- The next step from withFetchWord runs the instruction that the word decodes to (the model's: log entries 1, 10 and
12). -/
def Obligations.WithFetchWordRunsTheWord : Prop :=
  ∀ (s : State) (nbits w : Nat) (i : Instr), decodeTableWord nbits w = some i →
    step (s.withFetchWord nbits w) = exec i { s with run := .running, acc := [], inFlight := none }

/-- R93, R198: with nothing offered a step changes nothing; an empty chunk changes nothing but that it is no longer
offered. The rules say that there is no step at all: a step with nothing pending, which changes nothing, is the model's
choice (log entry 1), and so is one that only takes an empty chunk from what is offered (log entry 9). -/
def Obligations.NothingOfferedChangesNothing : Prop :=
  ∀ s : State, s.inFlight = none →
    (s.pending = [] → step s = .next s) ∧
    (∀ rest, s.pending = [.pushChunk []] :: rest → step s = .next { s with pending := rest })

/-! ## Invariants and whole-machine rules -/

/-- The invariant holds after power-on (R32, R112). -/
def Obligations.InvariantAtReset : Prop := State.reset.Inv

/-- Every step keeps the invariant: ACC stays in one of the three forms of R112, no bank outgrows N_SUB, bytes are held
only while running, a hung delivery (log entry 3) is the last event of the trace (R23, R25, R112, R118, R157). -/
def Obligations.StepKeepsTheInvariant : Prop :=
  ∀ s t : State, s.Inv → step s = .next t → t.Inv

/-- R113: the transition of DEC for a byte accepted from each of the forms of R112, which DEC names before and after. In
COLLECT, the byte that completes the candidate ends in IDLE (for IDLE the rule's `ACC` is empty), with the candidate's
meaning as its only other effect. -/
def Obligations.ByteTransitionsFollowTheTable : Prop :=
  ∀ (b : Byte) (s : State), s.Accepts →
    (s.acc = [] → decOf s.acc = .idle ∧ ∃ t, runOp (.pushByte b) s = .next t ∧
      t = { s with acc := if b = 0xAA then [0xAA] else [] } ∧ decOf t.acc = if b = 0xAA then .gotAA else .idle) ∧
    (s.acc = [0xAA] → decOf s.acc = .gotAA ∧ ∃ t, runOp (.pushByte b) s = .next t ∧
      t = { s with acc := if b = 0xCC ∨ b = 0xDD ∨ b = 0xEE then [0xAA, b] else if b = 0xAA then [0xAA] else [] } ∧
      decOf t.acc =
        if b = 0xCC then .collect .cs 2 else if b = 0xDD then .collect .ga 2 else if b = 0xEE then .collect .ra 2
        else if b = 0xAA then .gotAA else .idle) ∧
    (∀ k n, magicAt s.acc 0 = some k → n = s.acc.length → n + 1 < k.len → decOf s.acc = .collect k n ∧
      runOp (.pushByte b) s = .next { s with acc := s.acc ++ [b] } ∧ decOf (s.acc ++ [b]) = .collect k (n + 1)) ∧
    (∀ k n, magicAt s.acc 0 = some k → n = s.acc.length → n + 1 = k.len → decOf s.acc = .collect k n ∧
      ∃ t, runOp (.pushByte b) s = .next t ∧ t.acc = [] ∧ decOf t.acc = .idle ∧
        (ckOf (s.acc ++ [b]) ≠ trailerOf (s.acc ++ [b]) →
          t = crcDrop k (trailerOf (s.acc ++ [b])) (ckOf (s.acc ++ [b])) { s with acc := [] }) ∧
        (ckOf (s.acc ++ [b]) = trailerOf (s.acc ++ [b]) →
          ∃ v, (frameInstr k (s.acc ++ [b])).value = some v ∧ t = publish k v { s with acc := [] }))

/-- R114, R118: in a state that meets the invariant at most 73 bytes are held, so at most 74 when a byte is appended, and
a PUSH_BYTE completes at most one candidate: it emits at most one FRAME_OK or CRC_DROP. -/
def Obligations.OneCandidatePerByteAndBoundedAcc : Prop :=
  ∀ (b : Byte) (s t : State), s.Inv → runOp (.pushByte b) s = .next t →
    s.acc.length ≤ 73 ∧ (s.acc ++ [b]).length ≤ Config.accCap ∧ Config.accCap = 74 ∧
    ∃ es, t.trace = s.trace ++ es ∧ es.countP Event.endsCandidate ≤ 1

/-- R115, chunking invariance: however a byte stream is split into chunks, the source's chunk steps applied in turn give
the state and trace that PUSH_BYTE gives byte by byte, wherever the run byte by byte completes with no delivery hanging
(R157, R214). ACC is in one of the forms of R112 before. And PUSH_CHUNK is the run byte by byte that the statement speaks
of (R92): of no byte it changes nothing, and of a byte and more it is PUSH_BYTE of that byte and then PUSH_CHUNK of the
others, where that byte's deliveries do not hang. -/
def Obligations.ChunkingInvariance : Prop :=
  (∀ s : State, runOp (.pushChunk []) s = .next s) ∧
  (∀ (b : Byte) (bs : List Byte) (s t : State), runOp (.pushByte b) s = .next t → t.inFlight = none →
    runOp (.pushChunk (b :: bs)) s = runOp (.pushChunk bs) t) ∧
  (∀ (c : List Byte) (s : State), runOp (.pushChunk c) s = pushBytes execCandidate c s) ∧
  ∀ (chunks : List (List Byte)) (s t : State), s.Accepts → accForm s.acc = true →
    pushBytes execCandidate chunks.flatten s = .next t → t.inFlight = none →
    chunkSteps execCandidate chunks s = .next t

/-- R116, resync: garbage, a frame whose checksum matches, garbage, from IDLE, with no magic in the garbage: exactly the
frame is published, and of all the garbage only a final AA is held. No delivery of the frame hangs. -/
def Obligations.ResyncFindsTheFrame : Prop :=
  ∀ (g1 g2 : List Byte) (i : Instr) (k : Kind) (v : Value) (s : State),
    s.Accepts → s.acc = [] → MagicFree g1 → MagicFree g2 →
    i.kind = some k → i.value = some v → i.WellFormed → (publish k v s).inFlight = none →
    pushBytes execCandidate (g1 ++ encode i ++ g2) s =
      .next { publish k v s with acc := if g2.getLast? = some 0xAA then [0xAA] else [] }

/-- R117, the checksum gate: a well-formed frame with one bit flipped at a covered offset or in its trailer, arriving in
IDLE or GOT_AA, no longer matches: it is dropped and counted, never FRAME_OK; and the next well-formed frame after it is
published. -/
def Obligations.SingleBitErrorIsDropped : Prop :=
  ∀ (i i' : Instr) (k k' : Kind) (v' : Value) (j bit : Nat) (F : List Byte) (s : State),
    s.Accepts → s.Between → i.kind = some k → i.WellFormed → 2 ≤ j → j < k.len → bit < 8 →
    F = (encode i).set j (byteAt (encode i) j ^^^ BitVec.ofNat 8 (2 ^ bit)) →
    i'.kind = some k' → i'.value = some v' → i'.WellFormed →
    ckOf F ≠ trailerOf F ∧
    pushBytes execCandidate (F ++ encode i') s =
      .next (publish k' v' (crcDrop k (trailerOf F) (ckOf F) { s with acc := [] }))

/-- R119, ordering: well-formed frames of any kinds, concatenated and pushed from IDLE or GOT_AA, are published in stream
order, each with all its deliveries before the next, where no delivery of them hangs. -/
def Obligations.FramesArePublishedInStreamOrder : Prop :=
  ∀ (frames : List Instr) (kvs : List (Kind × Value)) (s : State),
    s.Accepts → s.Between → frames ≠ [] → (∀ i ∈ frames, i.WellFormed) →
    frames.map (fun i => (i.kind, i.value)) = kvs.map (fun p => (some p.1, some p.2)) →
    (publishAll kvs { s with acc := [] }).inFlight = none →
    pushBytes execCandidate (frames.flatMap encode) s = .next (publishAll kvs { s with acc := [] })

/-- R156, R158, isolation: two machines that differ at most in their subscribers (what outcomes they return, what of
their failures is in the trace, what was answered and what is pending) and that receive the same bytes stay equal in the
whole record of R20 and emit the same events but for SUB_FAULT, where no delivery hangs. -/
def Obligations.SubscribersCannotInfluenceTheDecoder : Prop :=
  ∀ (c : List Byte) (s t s' t' : State), SameRecord s t →
    pushBytes execCandidate c s = .next s' → pushBytes execCandidate c t = .next t' →
    s'.inFlight = none → t'.inFlight = none →
    SameRecord s' t' ∧
      ∃ es et, s'.trace = s.trace ++ es ∧ t'.trace = t.trace ++ et ∧ withoutFaults es = withoutFaults et

/-- The codes of the conditions, events, refused operations and rejections (60_exceptions.md R181), and that the
transport-open failure is the only fatal condition (R185). -/
def Obligations.CodesAreThoseOfTheTable : Prop :=
  ([Condition.noMagic, .crcMismatch, .truncated, .transportOpenFail, .sinkFailure, .subscriberFault, .subRejected,
    .opRefused].map Condition.code = [1, 2, 3, 4, 5, 6, 7, 8]) ∧
  (∀ (k : Kind) (v : Value) (j : Nat) (id : SubId) (r c : Bits16) (kc : BitVec 2) (why : SubReject) (o : OpName),
    [Event.frameOk k v, .deliver k j id v, .subFault k j id, .crcDrop k r c, .subReject kc id why, .started,
      .startFailed, .reset, .refused o].map Event.code = [0x10, 0x11, 0x12, 0x13, 0x14, 0x15, 0x16, 0x17, 0x18]) ∧
  SubReject.code .full = 0 ∧ SubReject.code .badKind = 1 ∧
  [OpName.pushByte, .start, .readReg].map OpName.code = [0, 1, 2] ∧
  ∀ c : Condition, c.fatal = true ↔ c = .transportOpenFail
end

