-- ==== Sys2Proof/Tests/Slice0.lean ====
section
/-! SUPPORT. The model's own tests. Expected results are written out from spec/95_test_vectors.md (V-…) and from the
encodings of 30_encoding.md, never from the model. The last part holds, for every statement with hypotheses, a state and
operands that meet them. -/

namespace Sys2Proof.Tests

open Sys2Proof.Machine

/-! ## Small states -/

/-- The next state of an outcome, if there is one. -/
def nextOf (o : Host.Outcome State Fault Refusal) : Option State :=
  match o with
  | .next s => some s
  | .fault _ => none
  | .refused _ => none

/-- Whether an outcome is the fault of a hung machine (R157). -/
def isHungFault (o : Host.Outcome State Fault Refusal) : Bool :=
  match o with
  | .next _ => false
  | .fault .deliveryHung => true
  | .refused _ => false

/-- Running after START OPEN, every subscriber's outcome OK (95_test_vectors.md section 0), the trace emptied. -/
def running : State := { State.reset with run := .running, draws := .scripted [], trace := [] }

/-- SUB CS 1, SUB GA 2, SUB RA 3, START OPEN. -/
def subbed : State := { running with subtab := { cs := [1], ga := [2], ra := [3] } }

/-- SUB RA 1, 2, 3, OUTCOME 2 FAULT, START OPEN (V-DSP-3). -/
def faulty : State := { running with subtab := { cs := [], ga := [], ra := [1, 2, 3] }, draws := .scripted [(2,
  .fault)] }

/-- SUB RA 1, SUB RA 2, OUTCOME 1 HANG, START OPEN (V-DSP-8). -/
def hanging : State := { running with subtab := { cs := [], ga := [], ra := [1, 2] }, draws := .scripted [(1, .hang)] }

/-- The delivery V-DSP-8 leaves on the port. -/
def hungDelivery : Delivery := { kind := .ra, index := 0, subId := 1, value := .status 5 }

/-- V-DSP-8 after its last byte. -/
def hung : State :=
  { hanging with
    trace := [.frameOk .ra (.status 5), .deliver .ra 0 1 (.status 5)], inFlight := some hungDelivery, drawCount := 1 }

/-- START CLOSED from reset (V-CTL-4). -/
def failedState : State := { State.reset with run := .failed, trace := [.reset, .startFailed] }

/-- V-IN-4: the first three bytes of a ControlStatus are held. -/
def collecting : State := { running with acc := [0xAA, 0xCC, 0x00] }

/-- A state with given operations offered as one cycle. -/
def offered (ops : List HostOp) (s : State) : State := { s with pending := [ops] }

/-- Five zero patterns. -/
def zero64 : Five Bits64 := ⟨0, 0, 0, 0, 0⟩
def zero32 : Five Bits32 := ⟨0, 0, 0, 0, 0⟩

/-- The Sample of V-L1-1. -/
def sampleL1 : Sample :=
  { tick := 1000, degree := 0x4029000000000000, cmX := 0x400999999999999A, setspeed := 0, reserved := zero64 }

/-- The 74 bytes of V-L1-1. -/
def bytesL1 : List Byte :=
  [0xAA, 0xCC, 0x00, 0x00, 0xE8, 0x03, 0x00, 0x00, 0x00, 0x00, 0x00, 0x00, 0x00, 0x00, 0x29, 0x40,
   0x9A, 0x99, 0x99, 0x99, 0x99, 0x99, 0x09, 0x40] ++ List.replicate 48 0x00 ++ [0x34, 0x05]

/-- The gains 1 to 5 of V-L1-2 frame 1. -/
def gainsL2 : Gains := ⟨⟨0x3F800000, 0x40000000, 0x40400000, 0x40800000, 0x40A00000⟩⟩

/-- V-L1-2 frame 1. -/
def bytesL2 : List Byte :=
  [0xAA, 0xDD, 0x00, 0x00, 0x80, 0x3F, 0x00, 0x00, 0x00, 0x40, 0x00, 0x00, 0x40, 0x40, 0x00, 0x00, 0x80, 0x40,
   0x00, 0x00, 0xA0, 0x40, 0x1F, 0x03]

/-- The JoystickState of V-DEC-6. -/
def joyBytes : List Byte :=
  [0xAA, 0x55, 0x01, 0x07, 0x10, 0x00, 0xF0, 0xFF, 0x00, 0x00, 0x00, 0x00, 0x03, 0x00, 0x0A, 0x02]

/-- The SetGains of V-DEC-6. -/
def setGainsBytes : List Byte :=
  [0xAA, 0x55, 0x02, 0x01, 0x00, 0x00, 0x80, 0x3F, 0x00, 0x00, 0x00, 0x40, 0x00, 0x00, 0x40, 0x40, 0x00, 0x00,
   0x80, 0x40, 0x00, 0x00, 0xA0, 0x40, 0x22, 0x03]

/-- The Reset command of V-DEC-6. -/
def resetBytes : List Byte := [0xAA, 0x55, 0x03, 0x10, 0x13, 0x00]

/-! ## WellFormed: the trailer check, one ill-formed packet for each constructor, beside the well-formed one -/

theorem test_wf_cs :
    (csFrame 0 0 sampleL1 0x0534).WellFormed ∧
    ¬(csFrame 0 0 sampleL1 0x0535).WellFormed := by
  decide +kernel

theorem test_wf_ga :
    (gaFrame gainsL2 0x031F).WellFormed ∧
    ¬(gaFrame gainsL2 0x031E).WellFormed := by decide +kernel

theorem test_wf_ra :
    (raFrame 0xFF 0x00FF).WellFormed ∧ ¬(raFrame 0xFF 0x01FF).WellFormed := by decide +kernel

theorem test_wf_joystick :
    (Instr.joystickState 7 16 0xFFF0 0 0 3 0x020A).WellFormed ∧
    ¬(Instr.joystickState 7 16 0xFFF0 0 0 3 0x030A).WellFormed := by decide +kernel

theorem test_wf_setgains :
    (Instr.setGains 1 gainsL2 0x0322).WellFormed ∧ ¬(Instr.setGains 1 gainsL2 0x0320).WellFormed := by decide +kernel

theorem test_wf_resetcmd :
    (Instr.resetCmd 0x10 0x0013).WellFormed ∧ ¬(Instr.resetCmd 0x10 0x0010).WellFormed := by decide +kernel

/-! ## Decode: words written out byte by byte from the spec's encodings -/

/-- V-L1-1. -/
theorem test_decode_cs : decode bytesL1 = .ok (csFrame 0 0 sampleL1 0x0534, []) := by decide +kernel

/-- V-COD-1: every field of a ControlStatus has a pattern of its own. -/
theorem test_decode_cs_patterns :
    decode ([0xAA, 0xCC, 0x12, 0x34, 0xEF, 0xBE, 0xAD, 0xDE] ++
      [0x01, 0, 0, 0, 0, 0, 0xF8, 0x7F] ++ [0, 0, 0, 0, 0, 0, 0, 0x80] ++ [0x01, 0, 0, 0, 0, 0, 0, 0] ++
      [0x02, 0, 0, 0, 0, 0, 0, 0] ++ [0x03, 0, 0, 0, 0, 0, 0, 0] ++ [0x04, 0, 0, 0, 0, 0, 0, 0] ++
      [0x05, 0, 0, 0, 0, 0, 0, 0] ++ [0, 0, 0, 0, 0, 0, 0xF0, 0xFF] ++ [0x74, 0x07]) =
    .ok (csFrame 0x12 0x34
      { tick := 0xDEADBEEF, degree := 0x7FF8000000000001, cmX := 0x8000000000000000, setspeed := 1,
        reserved := ⟨2, 3, 4, 5, 0xFFF0000000000000⟩ } 0x0774, []) := by decide +kernel

/-- V-L1-2 frame 1, with the next frame's first byte left over. -/
theorem test_decode_ga : decode (bytesL2 ++ [0xAA]) = .ok (gaFrame gainsL2 0x031F, [0xAA]) := by decide +kernel

/-- V-DEC-8. -/
theorem test_decode_ra :
    decode [0xAA, 0xEE, 0x05, 0x06, 0x00] = .ok (raFrame 0x05 0x0006, []) := by decide +kernel

/-- V-DEC-6. -/
theorem test_decode_joystick : decode joyBytes = .ok (.joystickState 7 16 0xFFF0 0 0 3 0x020A, []) := by decide +kernel

/-- V-DEC-6. -/
theorem test_decode_setgains : decode setGainsBytes = .ok (.setGains 1 gainsL2 0x0322, []) := by decide +kernel

/-- V-DEC-6. -/
theorem test_decode_resetcmd : decode resetBytes = .ok (.resetCmd 0x10 0x0013, []) := by decide +kernel

/-- What is no packet is refused by name: `AA 12` (V-DEC-5), an unknown outbound type, a cut frame (V-DEC-7). -/
theorem test_decode_rejects :
    decode [0xAA, 0x12] = .error .garbage ∧ decode [0xAA, 0x55, 0x04, 0, 0, 0] = .error .garbage ∧
    decode (bytesL2.take 10) = .error .truncated ∧ decode [0xAA] = .error .truncated := by decide +kernel

/-- V-COD-4: the reference encoders. -/
theorem test_reference_encoders :
    encCs (unparsedCs 0 0) (noBytes .cs) sampleL1 = bytesL1 ∧ encGa (framedGains gainsL2) = bytesL2 ∧
    encRa (framedStatus 5) = [0xAA, 0xEE, 0x05, 0x05, 0x00] := by
  decide +kernel

/-- R75: the joystick checksum is mod 65535 (offsets 2 to 13 hold at most 1 + 11 · 255 = 2806, so the moduli agree). -/
theorem test_joystick_largest :
    (Instr.joystickState 0xFF 0xFFFF 0xFFFF 0xFFFF 0xFFFF 0xFFFF 0).senderCk = 2806 := by decide +kernel

/-- The words of the opcode table's rows, operand bytes zero. -/
theorem test_table_words :
    decodeTableWord 16 0xAACC = some (csFrame 0 0 ⟨0, 0, 0, 0, zero64⟩ 0) ∧
    decodeTableWord 16 0xAADD = some (gaFrame ⟨zero32⟩ 0) ∧
    decodeTableWord 16 0xAAEE = some (raFrame 0 0) ∧
    decodeTableWord 24 0xAA5501 = some (.joystickState 0 0 0 0 0 0 0) ∧
    decodeTableWord 24 0xAA5502 = some (.setGains 0 ⟨zero32⟩ 0) ∧
    decodeTableWord 24 0xAA5503 = some (.resetCmd 0 0) ∧
    decodeTableWord 16 0xAACD = none := by decide +kernel

/-- The word of a row runs as the first instruction after reset: the zero ControlStatus is published. -/
theorem test_fetch_word :
    (nextOf (step (State.reset.withFetchWord 16 0xAACC))).map (fun s => (s.trace, s.pending)) =
      some ([.reset, .frameOk .cs (.sample ⟨0, 0, 0, 0, zero64⟩)], []) := by decide +kernel

/-! ## Single steps of each instruction (95_test_vectors.md) -/

/-- V-L1-1: the 74 bytes in one chunk. -/
theorem test_cs_published :
    (nextOf (step (offered [.pushChunk bytesL1] subbed))).map (fun s => (s.trace, s.acc, s.crcErrCnt)) =
      some ([.frameOk .cs (.sample sampleL1), .deliver .cs 0 1 (.sample sampleL1)], [], 0) := by decide +kernel

/-- V-DEC-12, first event: a trailer bit flipped. -/
theorem test_cs_dropped :
    nextOf (exec (csFrame 0 0 sampleL1 0x0535) running) =
      some { running with crcErrCnt := 1, trace := [.crcDrop .cs 0x0535 0x0534] } := by decide +kernel

/-- V-L1-2, both frames in one chunk. -/
theorem test_ga_twice :
    (nextOf (step (offered [.pushChunk (bytesL2 ++
        [0xAA, 0xDD, 0x00, 0x00, 0x00, 0x3F, 0x00, 0x00, 0x80, 0xBF, 0x00, 0x00, 0x80, 0x3E, 0x00, 0x00, 0x20, 0x41,
         0x00, 0x00, 0x00, 0x00, 0x9D, 0x02])] subbed))).map (fun s => s.trace) =
      some [.frameOk .ga (.gains gainsL2), .deliver .ga 0 2 (.gains gainsL2),
        .frameOk .ga (.gains ⟨⟨0x3F000000, 0xBF800000, 0x3E800000, 0x41200000, 0⟩⟩),
        .deliver .ga 0 2 (.gains ⟨⟨0x3F000000, 0xBF800000, 0x3E800000, 0x41200000, 0⟩⟩)] := by decide +kernel

/-- V-DEC-10: a trailer one above the largest sum. -/
theorem test_ga_dropped :
    nextOf (exec (gaFrame ⟨⟨0xFFFFFFFF, 0xFFFFFFFF, 0xFFFFFFFF, 0xFFFFFFFF, 0xFFFFFFFF⟩⟩ 0x13ED) running) =
      some { running with crcErrCnt := 1, trace := [.crcDrop .ga 0x13ED 0x13EC] } := by decide +kernel

/-- V-DSP-3: a faulting subscriber does not stop the next. -/
theorem test_ra_fault :
    (nextOf (exec (raFrame 5 5) faulty)).map (fun s => (s.trace, s.subtab, s.crcErrCnt)) =
      some ([.frameOk .ra (.status 5), .deliver .ra 0 1 (.status 5), .deliver .ra 1 2 (.status 5), .subFault .ra 1 2,
        .deliver .ra 2 3 (.status 5)], faulty.subtab, 0) := by decide +kernel

/-- V-DEC-15: a false magic in garbage swallows a real frame. -/
theorem test_false_magic :
    nextOf (step (offered [.pushChunk [0x00, 0xAA, 0xEE, 0x01, 0xAA, 0xEE, 0x04, 0x04, 0x00]] subbed)) =
      some { subbed with crcErrCnt := 1, trace := [.crcDrop .ra 0xEEAA 0x0001] } := by decide +kernel

/-- V-DEC-22: the counter wraps. -/
theorem test_counter_wraps :
    (nextOf (exec (raFrame 1 0) { running with crcErrCnt := 0xFFFFFFFF })).map (fun s => s.crcErrCnt) = some 0 := by
  decide +kernel

/-- V-DSP-8: the delivery hangs, and then there is no step. -/
theorem test_hang :
    nextOf (step (offered [.pushChunk [0xAA, 0xEE, 0x05, 0x05, 0x00]] hanging)) = some hung ∧
    isHungFault (step hung) = true := by decide +kernel

/-- V-DEC-6: the outbound packets give no event and leave IDLE. -/
theorem test_joystick_is_garbage :
    nextOf (exec (.joystickState 7 16 0xFFF0 0 0 3 0x020A) subbed) = some subbed := by decide +kernel

theorem test_setgains_is_garbage : nextOf (exec (.setGains 1 gainsL2 0x0322) subbed) = some subbed := by decide +kernel

theorem test_resetcmd_is_garbage : nextOf (exec (.resetCmd 0x10 0x0013) subbed) = some subbed := by decide +kernel

/-- R121: a false ResetAck inside an outbound packet is accepted (axX = EEAA, the rest 0). -/
theorem test_joystick_false_frame :
    (nextOf (exec (.joystickState 7 0xEEAA 0 0 0 0 0x01A0) subbed)).map (fun s => s.trace) =
      some [.frameOk .ra (.status 0), .deliver .ra 0 3 (.status 0)] := by decide +kernel

/-- R92, R172: refused byte by byte before START. -/
theorem test_resetcmd_refused :
    (nextOf (exec (.resetCmd 0x10 0x0013) State.reset)).map (fun s => (s.trace, s.run)) =
      some (.reset :: List.replicate 6 (.refused .pushByte), .stopped) := by decide +kernel

/-- R122: taken into a candidate that is being collected. -/
theorem test_setgains_absorbed :
    (nextOf (exec (.setGains 1 gainsL2 0x0322) collecting)).map (fun s => s.acc.length) = some 29 := by decide +kernel

/-! ## The input, the host port and the registers -/

/-- V-DEC-2, V-DEC-3, V-DEC-4: the retained AA. -/
theorem test_retained_aa :
    (nextOf (step (offered [.pushChunk [0x01, 0x02, 0xAA]] running))).map (fun s => s.acc) = some [0xAA] ∧
    (nextOf (step (offered [.pushChunk [0xAA, 0xAA, 0xCC]] running))).map (fun s => s.acc) = some [0xAA, 0xCC] ∧
    (nextOf (step (offered [.pushChunk [0xAA, 0xAA, 0xAA]] running))).map (fun s => s.acc) = some [0xAA] := by
  decide +kernel

/-- V-DEC-19: garbage, a frame, garbage. -/
theorem test_resync :
    (nextOf (step (offered [.pushChunk [0x10, 0xAA, 0x20, 0xAA, 0xEE, 0x42, 0x42, 0x00, 0x30, 0xAA]] subbed))).map
        (fun s => (s.trace, s.acc, regStatus s)) =
      some ([.frameOk .ra (.status 66), .deliver .ra 0 3 (.status 66)], [0xAA], 0x75) := by decide +kernel

/-- V-IN-1: input before START is refused. -/
theorem test_refused_before_start :
    (nextOf (step (offered [.pushByte 0xAA] State.reset))).map (fun s => (s.trace, s.acc)) =
      some ([.reset, .refused .pushByte], []) := by decide +kernel

/-- Register 1 of the table of 95_test_vectors.md section 0, and V-DEC-7 and V-IN-6. -/
theorem test_status_register :
    regStatus State.reset = 0x30 ∧ regStatus running = 0x31 ∧ regStatus failedState = 0x32 ∧
    regStatus { running with acc := [0xAA] } = 0x75 ∧ regStatus collecting = 0xC9 ∧
    regStatus { running with acc := bytesL2.take 10 } = 0x299 ∧
    regStatus { running with acc := bytesL1.take 73 } = 0x1249 ∧ regSubCnt subbed = 0x111 := by decide +kernel

/-- R112: DEC of each form, a byte that begins no magic and the last byte before a candidate is complete among them. -/
theorem test_dec_of_acc :
    decOf [] = .idle ∧ decOf [0xAA] = .gotAA ∧ decOf [0xAA, 0xDD] = .collect .ga 2 ∧
    decOf (bytesL1.take 73) = .collect .cs 73 := by decide +kernel

/-- V-CTL-1 and V-CTL-2: READ 1 answers 0x30 after reset, READ 3 is refused and answers nothing. -/
theorem test_read_reg :
    nextOf (step (offered [.readReg 1] State.reset)) = some { State.reset with answer := some (.value 0x30) } ∧
    nextOf (step (offered [.readReg 3] State.reset)) =
      some { State.reset with answer := some .nothing, trace := [.reset, .refused .readReg] } := by decide +kernel

/-- V-CTL-3 and V-CTL-4: START. -/
theorem test_start :
    (nextOf (step (offered [.start true] State.reset))).map (fun s => (s.run, s.trace)) =
      some (.running, [.reset, .started]) ∧
    nextOf (step (offered [.start false] State.reset)) = some failedState ∧
    (nextOf (step (offered [.start true] failedState))).map (fun s => (s.run, s.trace)) =
      some (.failed, [.reset, .startFailed, .refused .start]) := by decide +kernel

/-- V-DSP-6: a full bank and a kind code that names none. -/
theorem test_subscribe :
    (nextOf (step (offered [.subscribe 1 200]
        { State.reset with subtab := { cs := [], ga := [0, 1, 2, 3, 4, 5, 6, 7], ra := [] } }))).map
        (fun s => (s.trace, s.answer, regSubCnt s)) =
      some ([.reset, .subReject 1 200 .full], some .rejected, 0x080) ∧
    (nextOf (step (offered [.subscribe 3 5] State.reset))).map (fun s => (s.trace, s.subtab)) =
      some ([.reset, .subReject 3 5 .badKind], SubTab.empty) ∧
    (nextOf (step (offered [.subscribe 2 3] State.reset))).map (fun s => (s.subtab.ra, s.answer)) =
      some ([3], some .accepted) := by decide +kernel

/-- V-RST-1: RESET in the middle of a frame. -/
theorem test_reset_mid_frame :
    (nextOf (step (offered [.reset] { subbed with acc := bytesL1.take 40 }))).map
        (fun s => (regCrcErr s, regStatus s, regSubCnt s, s.trace)) = some (0, 0x30, 0, [.reset]) := by decide +kernel

/-- R189: a RESET offered with a byte is taken first; the byte stays offered. -/
theorem test_reset_before_byte :
    (nextOf (step (offered [.pushByte 0xAA, .reset] running))).map (fun s => (s.run, s.acc, s.pending)) =
      some (.stopped, [], [[.pushByte 0xAA]]) := by decide +kernel

/-- R80: the latest OUTCOME line of a subscriber wins. -/
theorem test_outcome_latest :
    (nextOf (step (offered [.setOutcome 2 .ok] faulty))).map (fun s => (drawOutcome s 2, drawOutcome s 9)) =
      some (.ok, .ok) := by decide +kernel

/-! ## Witnesses: for every statement with hypotheses, a state and operands that meet them -/

/-- No subscriber of the faulty machine hangs. -/
theorem faulty_noHang (id : SubId) : outcomeAt faulty 0 id ≠ .hang := by
  show scriptedOutcome [(2, .fault)] id ≠ .hang
  simp only [scriptedOutcome]
  split <;> decide

theorem witness_EncodeOfDecode :
    decode [0xAA, 0xEE, 0x05, 0x06, 0x00, 0xFF] = .ok (raFrame 0x05 0x0006, [0xFF]) := by decide +kernel

theorem witness_RoundTripOfEveryKind :
    bytesL1 = encCs (unparsedCs 0 0) (noBytes .cs) sampleL1 ∧ bytesL2 = encGa (framedGains gainsL2) ∧
    [0xAA, 0xEE, 0x05, 0x05, 0x00] = encRa (framedStatus 5) ∧ running.Accepts ∧ running.acc = [] := by decide +kernel

theorem witness_rowsAreDisjoint :
    ∃ r ∈ opTable, r.selects [0xAA, 0xCC] = true := by decide +kernel

theorem witness_MagicOccursExactly :
    magicAt [0xAA, 0xCC] 0 = some .cs ∧ magicAt [0x00, 0xAA, 0xDD] 1 = some .ga ∧
    magicAt [0xAA, 0xEE] 0 = some .ra := by
  decide

theorem witness_LengthFromFirstTwoBytes :
    magicAt (bytesL2.take 23) 0 = some .ga ∧ (bytesL2.take 23).length < Kind.ga.len ∧
    magicAt bytesL2 0 = some .ga ∧ ¬bytesL2.length < Kind.ga.len := by decide

theorem witness_NotAFrameIsDiscarded :
    ¬((0xAA : Byte) = 0xAA ∧ ((0xAA : Byte) = 0xCC ∨ (0xAA : Byte) = 0xDD ∨ (0xAA : Byte) = 0xEE)) ∧
    ¬((0x01 : Byte) = 0xAA ∧ ((0xCC : Byte) = 0xCC ∨ (0xCC : Byte) = 0xDD ∨ (0xCC : Byte) = 0xEE)) ∧
    running.Accepts ∧ running.acc = [] := by decide

theorem witness_ChecksumIsTheByteSum :
    bytesL1.length = Kind.cs.len ∧ bytesL2.length = Kind.ga.len ∧
    [0xAA, 0xEE, 0x05, 0x05, (0x00 : Byte)].length = Kind.ra.len := by decide

/-- One frame at the largest trailer and one just above it (V-COD-3), and a matching ResetAck. -/
theorem witness_ChecksumRange :
    magicAt [0xAA, 0xEE, 0xFF, 0xFF, 0x01] 0 = some .ra ∧
    0x00FF < (trailerOf [0xAA, 0xEE, 0xFF, 0xFF, 0x01]).toNat ∧
    ckOf [0xAA, 0xEE, 0xFF, 0xFF, 0x00] = trailerOf [0xAA, 0xEE, 0xFF, 0xFF, 0x00] := by decide +kernel

theorem witness_FieldsAreLittleEndian : 72 + 2 ≤ bytesL1.length ∧ 2 ≤ bytesL1.length ∧ 4 ≤ 5 ∧ 5 < 4 + 4 := by decide

theorem witness_UnparsedBytesAreSummedNotDelivered :
    (csFrame 0 0 sampleL1 0x0534).WellFormed ∧
    (csFrame 0x80 0x01 sampleL1 0x05B5).WellFormed := by decide +kernel

theorem witness_FirstMagicIsTheLeast :
    firstMagic [0x11, 0xAA, 0xEE, 0xAA, 0xCC] = some (1, .ra) ∧ magicAt [0xAA, 0xEE] 0 = some .ra := by decide

theorem witness_AttemptFollowsItsSteps :
    firstMagic [0x01, 0xAA] = none ∧
    firstMagic [0x01, 0xAA, 0xEE, 0x05] = some (1, .ra) ∧ 4 - 1 < Kind.ra.len ∧
    firstMagic [0x01, 0xAA, 0xEE, 0x05, 0x05, 0x00] = some (1, .ra) ∧ Kind.ra.len ≤ 6 - 1 := by decide

theorem witness_CandidateIsMagicLed :
    attempt [0x01, 0xAA, 0xEE, 0x05, 0x05, 0x00, 0x77] =
      .candidate .ra [0xAA, 0xEE, 0x05, 0x05, 0x00] [0x77] := by decide

/-- The least fuel the bound allows: |ACC| = 5 gives 2. -/
theorem witness_DrainIsBounded :
    ({ running with acc := [0xAA, 0xEE, 0x05, 0x05, 0x00] } : State).acc.length / 5 + 1 ≤ 2 := by
  decide

theorem witness_MatchingFrameIsPublished :
    subbed.inFlight = none ∧ (csFrame 0 0 sampleL1 0x0534).WellFormed ∧
    (gaFrame gainsL2 0x031F).WellFormed ∧
    (raFrame 5 5).WellFormed := by decide +kernel

theorem witness_MismatchedFrameIsDropped :
    (raFrame 5 6).kind = some .ra ∧ ¬(raFrame 5 6).WellFormed ∧
    running.inFlight = none := by decide +kernel

theorem witness_FrameWithNoSubscriber :
    (raFrame 5 5).kind = some .ra ∧ (raFrame 5 5).value = some (.status 5) ∧
    (raFrame 5 5).WellFormed ∧
    running.inFlight = none ∧ running.subtab.bank .ra = [] := by decide +kernel

theorem witness_InboundLeavesTheRest :
    ((raFrame 5 5).kind = some .ra ∧ (raFrame 5 5).WellFormed ∧
    (nextOf (exec (raFrame 5 5) subbed)).isSome = true) ∧
    ((raFrame 5 6).kind = some .ra ∧ ¬(raFrame 5 6).WellFormed ∧
    (nextOf (exec (raFrame 5 6) subbed)).isSome = true) := by
  decide +kernel

theorem witness_OutboundIsGarbage :
    subbed.Accepts ∧ subbed.Between ∧
    (Instr.joystickState 7 16 0xFFF0 0 0 3 0x020A).kind = none ∧
    MagicFree (encode (.joystickState 7 16 0xFFF0 0 0 3 0x020A)) ∧
    (Instr.setGains 1 gainsL2 0x0322).kind = none ∧ MagicFree (encode (.setGains 1 gainsL2 0x0322)) ∧
    (Instr.resetCmd 0x10 0xAA00).kind = none ∧ MagicFree (encode (.resetCmd 0x10 0xAA00)) ∧
    (encode (.resetCmd 0x10 0xAA00)).getLast? = some 0xAA := by decide +kernel

theorem witness_OutboundIsRefusedUnlessRunning :
    (Instr.resetCmd 0x10 0x0013).kind = none ∧ State.reset.inFlight = none ∧ State.reset.run ≠ .running ∧
    failedState.run ≠ .running := by decide

theorem witness_OutboundLeavesTheRest :
    (Instr.joystickState 7 0xEEAA 0 0 0 0 0x01A0).kind = none ∧ subbed.inFlight = none := by decide

/-- 3 held and 70 more stay short of 74; a SetGains of 26 fits too. -/
theorem witness_NoSearchInsideACandidate :
    collecting.Accepts ∧ magicAt collecting.acc 0 = some .cs ∧
    collecting.acc.length + (List.replicate 70 (0xAA : Byte)).length < Kind.cs.len ∧
    (Instr.setGains 1 gainsL2 0x0322).kind = none ∧
    collecting.acc.length + (encode (.setGains 1 gainsL2 0x0322)).length < Kind.cs.len := by decide +kernel

theorem witness_MagicPatternLocks :
    running.Accepts ∧ running.Between ∧ kindOf 0xEE = some .ra ∧ [(0x01 : Byte), 0xAA].length + 2 < Kind.ra.len ∧
    [(0x01 : Byte), 0xAA, 0xEE].length + 2 = Kind.ra.len ∧ ({ running with acc := [0xAA] } : State).Between := by
  decide

theorem witness_PublishDeliversInOrder :
    ∀ (j : Nat) (id : SubId), (faulty.subtab.bank .ra)[j]? = some id → outcomeAt faulty j id ≠ .hang :=
  fun _ id _ => faulty_noHang id

/-- The chunk clause: with four bytes of the frame held, the fifth byte's delivery hangs. -/
theorem witness_HangStopsThePublish_chunk :
    (nextOf (runOp (.pushByte 0x00) { hanging with acc := [0xAA, 0xEE, 0x05, 0x05] })).map (fun t => t.inFlight) =
      some (some hungDelivery) := by decide +kernel

theorem witness_HangStopsThePublish :
    hanging.subtab.bank .ra = [] ++ 1 :: [2] ∧
    (∀ (j : Nat) (id' : SubId), ([] : List SubId)[j]? = some id' → outcomeAt hanging j id' ≠ .hang) ∧
    outcomeAt hanging 0 1 = .hang := by
  refine ⟨rfl, ?_, by decide⟩
  intro j id' h
  simp at h

/-- A state for each clause: a delivery hangs, and none does while the unit runs and while it does not. -/
theorem witness_HungMachineHasNoStep :
    hung.inFlight = some hungDelivery ∧ running.run = .running ∧ running.inFlight = none ∧
    State.reset.run ≠ .running := by
  decide

/-- R91, R155: the levels of the two handshakes between steps. -/
theorem test_handshake_levels :
    inReady running = true ∧ inReady State.reset = false ∧ inReady failedState = false ∧ inReady hung = false ∧
    dlvValid running = false ∧ dlvValid hung = true := by decide +kernel

theorem witness_DeliveriesGoToTheKindsSubscribers :
    (publish .ra (.status 5) subbed).trace =
      subbed.trace ++ [.frameOk .ra (.status 5), .deliver .ra 0 3 (.status 5)] ∧
    Event.deliver .ra 0 3 (.status 5) ∈ [Event.frameOk .ra (.status 5), .deliver .ra 0 3 (.status 5)] := by
  decide +kernel

/-- The GA bank full, the RA bank with one place left. -/
def nearlyFull : State :=
  { running with subtab := { cs := [], ga := List.replicate 8 0, ra := List.replicate 7 0 } }

/-- A full bank, a bank with one place left, and code 3. -/
theorem witness_SubscribeRegistersOrRejects :
    Kind.ga.kcode = 1 ∧ Kind.ra.kcode = 2 ∧ (3 : BitVec 2) = 3 ∧ 8 ≤ (nearlyFull.subtab.bank .ga).length ∧
    (nearlyFull.subtab.bank .ra).length < 8 := by decide

theorem witness_SubtabIsWrittenOnlyBySubscribeAndReset :
    (nextOf (runOp (.subscribe 2 3) running)).isSome = true ∧ (nextOf (runOp .reset subbed)).isSome = true := by
  decide +kernel

theorem witness_CounterCountsTheDrops :
    (nextOf (runOp (.pushChunk [0xAA, 0xEE, 0x05, 0x06, 0x00]) running)).isSome = true ∧
    (nextOf (runOp .reset running)).isSome = true := by decide +kernel

theorem witness_RunChangesOnlyByStartAndReset :
    (nextOf (runOp (.start true) State.reset)).isSome = true ∧
    (nextOf (runOp (.start false) State.reset)).isSome = true ∧
    (nextOf (runOp (.start true) failedState)).isSome = true ∧ (nextOf (runOp .reset failedState)).isSome = true := by
  decide +kernel

theorem witness_TraceOnlyGrows :
    (nextOf (step (offered [.pushChunk [0xAA, 0xEE, 0x05, 0x05, 0x00]] subbed))).isSome = true := by decide +kernel

theorem witness_StartRunsOrFails : State.reset.run = .stopped ∧ failedState.run ≠ .stopped := by decide

theorem witness_InputIsRefusedUnlessRunning :
    State.reset.inFlight = none ∧ State.reset.run ≠ .running ∧ failedState.inFlight = none ∧
    failedState.run ≠ .running := by decide

/-- The invariant at the boundary of each field: 73 bytes held, and every bank full; and the three forms of ACC. -/
theorem witness_StatusRegisterFields :
    failedState.acc = [] ∧ magicAt (bytesL1.take 73) 0 = some .cs ∧ (bytesL1.take 73).length < Kind.cs.len ∧
    ({ running with
      acc := bytesL1.take 73,
      subtab := { cs := List.replicate 8 1, ga := List.replicate 8 2, ra := List.replicate 8 3 } } : State).Inv ∧
    failedState.Inv ∧ ({ running with acc := [0xAA] } : State).Inv := by decide +kernel

theorem witness_ReadRegHasNoSideEffect :
    2 < 3 ∧ (nextOf (runOp (.readReg 0) running)).isSome = true ∧
    (nextOf (runOp (.readReg 2) running)).isSome = true := by
  decide +kernel

theorem witness_AdmissionFollowsTheTable :
    (nextOf (runOp (.readReg 3) running)).isSome = true ∧ (nextOf (runOp (.readReg 2) running)).isSome = true ∧
    (nextOf (runOp (.pushChunk []) State.reset)).isSome = true ∧
    (nextOf (runOp (.pushChunk [0x00]) State.reset)).isSome = true := by decide +kernel

theorem witness_CycleOrderIsResetFirst :
    selectOp [.pushByte 0xAA, .reset] = some (.reset, [.pushByte 0xAA]) ∧
    (offered [.pushByte 0xAA, .reset] running).inFlight = none ∧
    (offered [.pushByte 0xAA, .reset] running).pending = [.pushByte 0xAA, .reset] :: [] := by decide +kernel

/-- One operation alone in its cycle, and one of two. -/
theorem witness_StepRunsTheSelectedOperation :
    (offered [.reset] running).inFlight = none ∧ (offered [.reset] running).pending = [.reset] :: [] ∧
    selectOp [.reset] = some (.reset, []) ∧ selectOp [.readReg 0, .start true] = some (.start true, [.readReg 0]) := by
  decide

theorem witness_OutcomeLinesSetTheDraws : faulty.draws ≠ .free ∧ (9 : SubId) ≠ 2 := by decide

theorem witness_StepRunsTheDecodedFrame :
    (offered [.pushByte 0x00] { running with acc := [0xAA, 0xEE, 0x05, 0x05] }).Accepts ∧
    (offered [.pushByte 0x00] { running with acc := [0xAA, 0xEE, 0x05, 0x05] }).pending = [.pushByte 0x00] :: [] ∧
    (raFrame 5 5).kind = some .ra ∧
    decode ([0xAA, 0xEE, 0x05, 0x05] ++ [0x00]) = .ok (raFrame 5 5, []) := by
  decide +kernel

theorem witness_StepRunsTheWholePacket :
    (offered [.pushChunk (encode (raFrame 5 5))] running).pending = [.pushChunk (encode (raFrame 5 5))] :: [] ∧
    (raFrame 5 5).kind = some .ra ∧ (offered [.pushChunk (encode (raFrame 5 5))] running).Accepts ∧
    (offered [.pushChunk (encode (raFrame 5 5))] running).Between ∧
    (Instr.resetCmd 0x10 0x0013).kind = none ∧
    (offered [.pushChunk (encode (.resetCmd 0x10 0x0013))] failedState).inFlight = none := by decide +kernel

theorem witness_WithFetchWordRunsTheWord : decodeTableWord 16 0xAAEE = some (raFrame 0 0) := by decide +kernel

theorem witness_NothingOfferedChangesNothing :
    running.inFlight = none ∧ running.pending = [] ∧
    (offered [.pushChunk []] running).pending = [.pushChunk []] :: [] := by
  decide

theorem witness_StepKeepsTheInvariant :
    (offered [.pushByte 0x05] subbed).Inv ∧ (nextOf (step (offered [.pushByte 0x05] subbed))).isSome = true := by
  decide +kernel

/-- The forms of R112, with n + 1 below and at the kind's length. -/
theorem witness_ByteTransitionsFollowTheTable :
    running.Accepts ∧ running.acc = [] ∧ ({ running with acc := [0xAA] } : State).acc = [0xAA] ∧
    magicAt [0xAA, 0xEE, 0x05] 0 = some .ra ∧ 3 = [(0xAA : Byte), 0xEE, 0x05].length ∧ 3 + 1 < Kind.ra.len ∧
    magicAt [0xAA, 0xEE, 0x05, 0x05] 0 = some .ra ∧ 4 = [(0xAA : Byte), 0xEE, 0x05, 0x05].length ∧
    4 + 1 = Kind.ra.len ∧
    ckOf ([0xAA, 0xEE, 0x05, 0x05] ++ [0x00]) = trailerOf ([0xAA, 0xEE, 0x05, 0x05] ++ [0x00]) ∧
    ckOf ([0xAA, 0xEE, 0x05, 0x05] ++ [0x01]) ≠ trailerOf ([0xAA, 0xEE, 0x05, 0x05] ++ [0x01]) := by decide +kernel

theorem witness_OneCandidatePerByteAndBoundedAcc :
    ({ running with acc := bytesL1.take 73 } : State).Inv ∧
    (nextOf (runOp (.pushByte 0x05) { running with acc := bytesL1.take 73 })).isSome = true := by decide +kernel

theorem witness_ChunkingInvariance :
    (nextOf (runOp (.pushByte 0xAA) faulty)).map (fun s => s.inFlight) = some none ∧
    faulty.Accepts ∧ accForm faulty.acc = true ∧
    (nextOf (pushBytes execCandidate [[0xAA], [0xEE, 0x05], [0x05, 0x00]].flatten faulty)).map (fun s => s.inFlight) =
      some none := by decide +kernel

theorem witness_ResyncFindsTheFrame :
    faulty.Accepts ∧ faulty.acc = [] ∧ MagicFree [0x10, 0xAA, 0x20] ∧ MagicFree [0x30, 0xAA] ∧
    (raFrame 0x42 0x42).kind = some .ra ∧ (raFrame 0x42 0x42).value = some (.status 0x42) ∧
    (raFrame 0x42 0x42).WellFormed ∧
    (publish .ra (.status 0x42) faulty).inFlight = none := by decide +kernel

/-- The first covered offset and the last trailer offset, the lowest and the highest bit. -/
theorem witness_SingleBitErrorIsDropped :
    subbed.Accepts ∧ subbed.Between ∧ (csFrame 0 0 sampleL1 0x0534).kind = some .cs ∧
    (csFrame 0 0 sampleL1 0x0534).WellFormed ∧ 2 ≤ 2 ∧ 2 < Kind.cs.len ∧ 73 < Kind.cs.len ∧ 0 < 8 ∧
    7 < 8 ∧
    (raFrame 7 7).kind = some .ra ∧ (raFrame 7 7).value = some (.status 7) ∧
    (raFrame 7 7).WellFormed := by
  decide +kernel

theorem witness_FramesArePublishedInStreamOrder :
    faulty.Accepts ∧ faulty.Between ∧ [raFrame 1 1, gaFrame gainsL2 0x031F] ≠ [] ∧
    (∀ i ∈ [raFrame 1 1, gaFrame gainsL2 0x031F], i.WellFormed) ∧
    [raFrame 1 1, gaFrame gainsL2 0x031F].map (fun i => (i.kind, i.value)) =
      [(Kind.ra, Value.status 1), (.ga, .gains gainsL2)].map (fun p => (some p.1, some p.2)) ∧
    (publishAll [(Kind.ra, Value.status 1), (.ga, .gains gainsL2)] { faulty with acc := [] }).inFlight = none := by
  decide +kernel

/-- Two machines whose subscribers differ: all OK, and one that fails. -/
theorem witness_SubscribersCannotInfluenceTheDecoder :
    SameRecord { faulty with draws := .scripted [] } faulty ∧
    (nextOf (pushBytes execCandidate [0xAA, 0xEE, 0x05, 0x05, 0x00] { faulty with draws := .scripted [] })).map
      (fun s => s.inFlight) = some none ∧
    (nextOf (pushBytes execCandidate [0xAA, 0xEE, 0x05, 0x05, 0x00] faulty)).map (fun s => s.inFlight) = some none :=
  ⟨⟨rfl, rfl, rfl, rfl⟩, by decide +kernel, by decide +kernel⟩

end Sys2Proof.Tests
end

section
/-! PROOFS of 00_scope.md. What a byte of a sequence is after the sequence operations, what MemRead reads and MemWrite
leaves at each offset. -/

namespace Sys2Proof

/-! ## MemRead, byte by byte -/

/-- A sequence from an offset on is the byte there and the bytes after it. -/
theorem drop_eq_byteAt_cons {F : List Byte} {off : Nat} (h : off < F.length) :
    F.drop off = byteAt F off :: F.drop (off + 1) := by
  rw [List.drop_eq_getElem_cons h, byteAt, List.getD_eq_getElem F 0 h]

@[simp] theorem memRead_zero (F : List Byte) (off : Nat) : memRead F off 0 = 0 := rfl

/-- The lowest byte of a field is the one at its offset (R8). -/
theorem memRead_succ {F : List Byte} {off : Nat} (n : Nat) (h : off < F.length) :
    memRead F off (n + 1) = (byteAt F off).toNat + 256 * memRead F (off + 1) n := by
  rw [memRead, drop_eq_byteAt_cons h, List.take_succ_cons, leNat_cons, memRead]

/-- The weight of the next byte is 256 times that of the byte before it. -/
theorem two_pow_eight_succ (i : Nat) : 2 ^ (8 * (i + 1)) = 256 * 2 ^ (8 * i) := by
  rw [Nat.mul_succ, Nat.pow_add, Nat.mul_comm]

/-- MemRead as the weighted sum of the bytes of the field (R8, R41). -/
theorem memRead_eq_sum (F : List Byte) (off n : Nat) (h : off + n ≤ F.length) :
    memRead F off n = ((List.range n).map (fun i => (byteAt F (off + i)).toNat * 2 ^ (8 * i))).sum := by
  induction n generalizing off with
  | zero => rfl
  | succ n ih =>
    have hterm : ∀ i, (byteAt F (off + (i + 1))).toNat * 2 ^ (8 * (i + 1)) =
        256 * ((byteAt F (off + 1 + i)).toNat * 2 ^ (8 * i)) := fun i => by
      rw [two_pow_eight_succ, Nat.mul_left_comm, Nat.add_assoc, Nat.add_comm i 1]
    rw [memRead_succ n (by omega), ih (off + 1) (by omega), List.range_succ_eq_map, List.map_cons, List.sum_cons,
      List.map_map, ← List.sum_map_mul_left]
    simp only [Function.comp_def, hterm, Nat.succ_eq_add_one, Nat.add_zero, Nat.mul_zero, Nat.pow_zero, Nat.mul_one]

/-! ## MemWrite, byte by byte -/

@[simp] theorem byteAt_cons_zero (b : Byte) (bs : List Byte) : byteAt (b :: bs) 0 = b := rfl

@[simp] theorem byteAt_cons_succ (b : Byte) (bs : List Byte) (i : Nat) : byteAt (b :: bs) (i + 1) = byteAt bs i := rfl

theorem byteAt_append_left {A : List Byte} (B : List Byte) {i : Nat} (h : i < A.length) :
    byteAt (A ++ B) i = byteAt A i := List.getD_append A B 0 i h

theorem byteAt_append_right {A : List Byte} (B : List Byte) {i : Nat} (h : A.length ≤ i) :
    byteAt (A ++ B) i = byteAt B (i - A.length) := List.getD_append_right A B 0 i h

theorem byteAt_take (A : List Byte) {n i : Nat} (h : i < n) : byteAt (A.take n) i = byteAt A i := by
  simp only [byteAt, List.getD_eq_getElem?_getD, List.getElem?_take_of_lt h]

theorem byteAt_drop (A : List Byte) (n i : Nat) : byteAt (A.drop n) i = byteAt A (n + i) := by
  simp only [byteAt, List.getD_eq_getElem?_getD, List.getElem?_drop]

/-- Byte `i` of a value is its bits 8 i + 7 to 8 i (R8, R41). -/
theorem byteAt_leBytes {n i : Nat} (v : Nat) (h : i < n) :
    byteAt (leBytes n v) i = BitVec.ofNat 8 (v / 2 ^ (8 * i)) := by
  induction n generalizing v i with
  | zero => omega
  | succ n ih =>
    cases i with
    | zero => simp
    | succ i => rw [leBytes_succ, byteAt_cons_succ, ih (v / 256) (by omega), two_pow_eight_succ, Nat.div_div_eq_div_mul]

section memWrite
variable {F : List Byte} {off n j : Nat}

/-- A byte before the field is left alone (R8). -/
theorem byteAt_memWrite_before (v : Nat) (h : off + n ≤ F.length) (hj : j < off) :
    byteAt (memWrite F off n v) j = byteAt F j := by
  have hlen : (F.take off).length = off := List.length_take_of_le (by omega)
  rw [memWrite, List.append_assoc, byteAt_append_left _ (by omega), byteAt_take F hj]

/-- A byte of the field is the byte of the value at its place (R8, R41). -/
theorem byteAt_memWrite_inside (v : Nat) (h : off + n ≤ F.length) (hlo : off ≤ j) (hhi : j < off + n) :
    byteAt (memWrite F off n v) j = BitVec.ofNat 8 (v / 2 ^ (8 * (j - off))) := by
  have hlen : (F.take off).length = off := List.length_take_of_le (by omega)
  rw [memWrite, List.append_assoc, byteAt_append_right _ (by omega), hlen,
    byteAt_append_left _ (by rw [leBytes_length]; omega), byteAt_leBytes v (by omega)]

/-- A byte after the field is left alone (R8). -/
theorem byteAt_memWrite_after (v : Nat) (h : off + n ≤ F.length) (hj : off + n ≤ j) :
    byteAt (memWrite F off n v) j = byteAt F j := by
  have hlen : (F.take off ++ leBytes n v).length = off + n := by
    rw [List.length_append, leBytes_length, List.length_take_of_le (by omega)]
  rw [memWrite, byteAt_append_right _ (by omega), hlen, byteAt_drop, Nat.add_sub_cancel' hj]

/-- MemWrite, byte by byte: the field's bytes are the value's and every other byte is left alone (R8, R41). -/
theorem byteAt_memWrite (v : Nat) (h : off + n ≤ F.length) :
    byteAt (memWrite F off n v) j =
      if off ≤ j ∧ j < off + n then BitVec.ofNat 8 (v / 2 ^ (8 * (j - off))) else byteAt F j := by
  split
  case isTrue hin => exact byteAt_memWrite_inside v h hin.1 hin.2
  case isFalse hout =>
    rcases Nat.lt_or_ge j off with hj | hj
    · exact byteAt_memWrite_before v h hj
    · exact byteAt_memWrite_after v h (by omega)

end memWrite

/-! ## The trailer -/

/-- The trailer is the last two bytes, the last one the higher (R65). -/
theorem trailerOf_toNat {F : List Byte} (h : 2 ≤ F.length) :
    (trailerOf F).toNat = (byteAt F (F.length - 2)).toNat + 256 * (byteAt F (F.length - 1)).toNat := by
  have hlast : F.length - 2 + 1 = F.length - 1 := by omega
  have hlt : memRead F (F.length - 2) 2 < 2 ^ 16 := memRead_lt F (F.length - 2) 2
  rw [trailerOf, BitVec.toNat_ofNat, Nat.mod_eq_of_lt hlt, memRead_succ 1 (by omega), hlast,
    memRead_succ 0 (by omega), memRead_zero, Nat.mul_zero, Nat.add_zero]

/-- Settles O11: MemRead by induction on the field's length, MemWrite by where the byte stands to the field, the trailer
as a MemRead of two bytes. -/
theorem fieldsAreLittleEndian : Obligations.FieldsAreLittleEndian :=
  ⟨memRead_eq_sum, fun _ _ _ v _ h => byteAt_memWrite v h, fun _ h => trailerOf_toNat h⟩

end Sys2Proof
end

section
/-! PROOFS of 10_state.md. What each operation can do to the state, said once; the trace with the counter of its drops,
the frame of the byte input, the invariant's parts, and the packed fields of the status registers. -/

namespace Sys2Proof.Machine

/-! ## What the host operations can do -/

/-- SUBSCRIBE rejects, changing no table, or appends to a bank with room (R151 to R153). -/
theorem opSubscribe_cases (kc : BitVec 2) (id : SubId) (s : State) :
    (∃ why, opSubscribe kc id s = { emit (.subReject kc id why) s with answer := some .rejected }) ∨
    ∃ k, kindOfCode kc = some k ∧ (s.subtab.bank k).length < Config.nSub ∧
      opSubscribe kc id s = { s with subtab := s.subtab.append k id, answer := some .accepted } := by
  unfold opSubscribe
  split
  case h_1 => exact .inl ⟨_, rfl⟩
  case h_2 k hk =>
    split
    case isTrue => exact .inl ⟨_, rfl⟩
    case isFalse hroom => exact .inr ⟨k, hk, Nat.lt_of_not_le hroom, rfl⟩

/-- START leaves STOPPED by the state of the transport, and is refused in every other RUN state (R170, R171). -/
theorem opStart_cases (o : Bool) (s : State) :
    (s.run = .stopped ∧ o = true ∧ opStart o s = emit .started { s with run := .running }) ∨
    (s.run = .stopped ∧ o = false ∧ opStart o s = emit .startFailed { s with run := .failed }) ∨
    (s.run ≠ .stopped ∧ opStart o s = emit (.refused .start) s) := by
  cases hrun : s.run <;> cases o <;> simp [opStart, hrun]

/-- READ_REG answers a value, or is refused (R173). -/
theorem opReadReg_cases (n : Nat) (s : State) :
    (∃ v, opReadReg n s = { s with answer := some (.value v) }) ∨
    opReadReg n s = { emit (.refused .readReg) s with answer := some .nothing } := by
  unfold opReadReg
  split
  · exact .inl ⟨_, rfl⟩
  · exact .inr rfl

/-- An OUTCOME line changes the source of outcomes alone (R80). -/
theorem opSetOutcome_eq (id : SubId) (o : SubOutcome) (s : State) :
    ∃ d, opSetOutcome id o s = { s with draws := d } := by
  unfold opSetOutcome
  split <;> exact ⟨_, rfl⟩

/-! ## What the byte input can do -/

/-- A candidate's check answers only where no delivery hangs: with the publish or with the drop (R106 to R108). -/
theorem checkCandidate_cases {k : Kind} {F : List Byte} {v : Value} {s t : State}
    (h : checkCandidate k F v s = .next t) :
    s.inFlight = none ∧ (t = publish k v s ∨ ∃ received computed, t = crcDrop k received computed s) := by
  unfold checkCandidate at h
  split at h
  case h_1 => cases h
  case h_2 hf =>
    split at h
    · cases h; exact ⟨hf, .inl rfl⟩
    · cases h; exact ⟨hf, .inr ⟨_, _, rfl⟩⟩

/-- Whatever bytes the decoder hands to a meaning, it is the check of a candidate. -/
theorem runCandidate_is_check (k : Kind) (F : List Byte) (s : State) :
    ∃ G v, runCandidate k F s = checkCandidate k G v s := by
  cases k <;> exact ⟨_, _, rfl⟩

/-- PUSH_BYTE answers only where no delivery hangs: with the drain while running, with the refusal otherwise (R90,
R172). -/
theorem pushByte_cases {run : Executor} {b : Byte} {s t : State} (h : pushByte run b s = .next t) :
    s.inFlight = none ∧
      ((s.run = .running ∧ drain run { s with acc := s.acc ++ [b] } = .next t) ∨
        (s.run ≠ .running ∧ t = emit (.refused .pushByte) s)) := by
  unfold pushByte at h
  split at h
  case h_1 => cases h
  case h_2 hf =>
    refine ⟨hf, ?_⟩
    split at h
    case h_1 hrun => exact .inl ⟨hrun, h⟩
    case h_2 hrun => cases h; exact .inr ⟨by simp [hrun], rfl⟩
    case h_3 hrun => cases h; exact .inr ⟨by simp [hrun], rfl⟩

/-- A reflexive and transitive relation that each PUSH_BYTE meets, and that does not see the bytes held back, holds
over a whole chunk (R92). -/
theorem pushBytes_rel {run : Executor} (R : State → State → Prop) (refl : ∀ s, R s s)
    (trans : ∀ {s t u}, R s t → R t u → R s u) (push : ∀ {b s t}, pushByte run b s = .next t → R s t)
    (hold : ∀ bs s, R s (holdBack bs s)) {bs : List Byte} {s t : State} (h : pushBytes run bs s = .next t) :
    R s t := by
  induction bs generalizing s with
  | nil => cases h; exact refl _
  | cons b bs ih =>
    unfold pushBytes at h
    split at h
    case h_1 u hb =>
      split at h
      · cases h; exact trans (push hb) (hold bs u)
      · exact trans (push hb) (ih h)
    case h_2 => cases h
    case h_3 => cases h

theorem runOp_pushByte (b : Byte) (s : State) : runOp (.pushByte b) s = pushByte runCandidate b s := by
  rw [← execCandidate_eq]; rfl

theorem runOp_pushChunk (c : List Byte) (s : State) : runOp (.pushChunk c) s = pushBytes runCandidate c s := by
  rw [← execCandidate_eq]; rfl

/-- A step answers only where no delivery hangs: it takes something from what is offered, and runs at most one
operation (R46, R157). -/
theorem step_cases {s t : State} (h : step s = .next t) :
    s.inFlight = none ∧
      ∃ p, t = { s with pending := p } ∨ ∃ op, runOp op { s with pending := p } = .next t := by
  unfold step stepMachine at h
  split at h
  case h_1 => cases h
  case h_2 hf =>
    refine ⟨hf, ?_⟩
    split at h
    case h_1 => cases h; exact ⟨_, .inl rfl⟩
    case h_2 =>
      split at h
      · cases h; exact ⟨_, .inl rfl⟩
      · exact ⟨_, .inr ⟨_, h⟩⟩

/-! ## The trace and the counter of its drops (R24, R27) -/

/-- Events were appended to the trace, and the counter went up, mod 2^32, by the drops among them. -/
def Counted (s t : State) : Prop :=
  ∃ es, t.trace = s.trace ++ es ∧ t.crcErrCnt = s.crcErrCnt + BitVec.ofNat 32 (es.countP Event.isDrop)

/-- Nothing appended, nothing counted; and so where only other fields differ. -/
theorem Counted.of_eq {s t : State} (ht : t.trace = s.trace) (hc : t.crcErrCnt = s.crcErrCnt) : Counted s t :=
  ⟨[], by simp [ht], by simp [hc]⟩

theorem Counted.trans {s t u : State} (h : Counted s t) (h' : Counted t u) : Counted s u := by
  obtain ⟨es, ht, hc⟩ := h
  obtain ⟨es', ht', hc'⟩ := h'
  refine ⟨es ++ es', by rw [ht', ht, List.append_assoc], ?_⟩
  rw [hc', hc, List.countP_append, BitVec.ofNat_add, BitVec.add_assoc]

/-- An event that is no drop, alone, leaves the counter alone. -/
theorem counted_emit {e : Event} (he : e.isDrop = false) (s : State) : Counted s (emit e s) :=
  ⟨[e], rfl, by simp [he]⟩

theorem counted_crcDrop (k : Kind) (received computed : Bits16) (s : State) :
    Counted s (crcDrop k received computed s) := ⟨[.crcDrop k received computed], rfl, rfl⟩

/-- A publish emits no drop and leaves the counter alone (R154, R156). -/
theorem counted_publish (k : Kind) (v : Value) (s : State) : Counted s (publish k v s) := by
  obtain ⟨es, ht, hes⟩ := publish_trace k v s
  refine ⟨_, ht, ?_⟩
  have hnone : (Event.frameOk k v :: es).countP Event.isDrop = 0 := by
    rw [List.countP_eq_zero]
    rintro e (_ | ⟨_, he⟩)
    · simp [Event.isDrop]
    · obtain ⟨j, id, rfl⟩ | ⟨j, id, rfl⟩ := hes e he <;> simp [Event.isDrop]
  rw [hnone, publish_crcErrCnt]
  exact (BitVec.add_zero _).symm

/-! ## The frame of the byte input -/

/-- What receiving bytes leaves alone: RUN, SUBTAB, the latest answer and the source of outcomes; and every drop of it
is counted. -/
structure Receives (s t : State) : Prop where
  run : t.run = s.run
  subtab : t.subtab = s.subtab
  answer : t.answer = s.answer
  draws : t.draws = s.draws
  counted : Counted s t

theorem Receives.refl (s : State) : Receives s s := ⟨rfl, rfl, rfl, rfl, .of_eq rfl rfl⟩

theorem Receives.trans {s t u : State} (h : Receives s t) (h' : Receives t u) : Receives s u :=
  ⟨h'.run.trans h.run, h'.subtab.trans h.subtab, h'.answer.trans h.answer, h'.draws.trans h.draws,
    h.counted.trans h'.counted⟩

theorem runCandidate_receives {k : Kind} {F : List Byte} {s t : State} (h : runCandidate k F s = .next t) :
    Receives s t := by
  obtain ⟨G, v, hcheck⟩ := runCandidate_is_check k F s
  obtain ⟨-, rfl | ⟨r, c, rfl⟩⟩ := checkCandidate_cases (hcheck ▸ h)
  · exact ⟨by simp, by simp, by simp, by simp, counted_publish k v s⟩
  · exact ⟨rfl, rfl, rfl, rfl, counted_crcDrop k r c s⟩

/-- The accumulator is no part of the frame. -/
theorem Receives.of_withAcc {s t : State} {A : List Byte} (h : Receives { s with acc := A } t) : Receives s t :=
  ⟨h.run, h.subtab, h.answer, h.draws, h.counted⟩

theorem drainFuel_receives {n : Nat} {s t : State} (h : drainFuel runCandidate n s = .next t) : Receives s t := by
  induction n generalizing s with
  | zero => cases h; exact .refl _
  | succ n ih =>
    unfold drainFuel at h
    split at h
    case h_1 A _ => cases h; exact (Receives.refl { s with acc := A }).of_withAcc
    case h_2 rest _ =>
      split at h
      case h_1 u hu =>
        have hsu : Receives s u := (runCandidate_receives hu).of_withAcc
        split at h
        · cases h; exact hsu
        · exact hsu.trans (ih h)
      case h_2 => cases h
      case h_3 => cases h

theorem pushByte_receives {b : Byte} {s t : State} (h : pushByte runCandidate b s = .next t) : Receives s t := by
  obtain ⟨-, ⟨-, hdrain⟩ | ⟨-, rfl⟩⟩ := pushByte_cases h
  · exact (drainFuel_receives hdrain).of_withAcc
  · exact ⟨rfl, rfl, rfl, rfl, counted_emit rfl s⟩

theorem holdBack_receives (bs : List Byte) (s : State) : Receives s (holdBack bs s) :=
  ⟨by simp, by simp, by simp, by simp, .of_eq (by simp) (by simp)⟩

theorem pushBytes_receives {bs : List Byte} {s t : State} (h : pushBytes runCandidate bs s = .next t) :
    Receives s t :=
  pushBytes_rel Receives Receives.refl Receives.trans pushByte_receives holdBack_receives h

/-! ## Every operation but RESET counts its drops -/

theorem opSubscribe_counted (kc : BitVec 2) (id : SubId) (s : State) : Counted s (opSubscribe kc id s) := by
  obtain ⟨why, h⟩ | ⟨k, -, -, h⟩ := opSubscribe_cases kc id s <;> rw [h]
  · exact counted_emit rfl s
  · exact .of_eq rfl rfl

theorem opStart_counted (o : Bool) (s : State) : Counted s (opStart o s) := by
  obtain ⟨-, -, h⟩ | ⟨-, -, h⟩ | ⟨-, h⟩ := opStart_cases o s <;> rw [h]
  · exact counted_emit rfl { s with run := .running }
  · exact counted_emit rfl { s with run := .failed }
  · exact counted_emit rfl s

theorem opReadReg_counted (n : Nat) (s : State) : Counted s (opReadReg n s) := by
  obtain ⟨v, h⟩ | h := opReadReg_cases n s <;> rw [h]
  · exact .of_eq rfl rfl
  · exact counted_emit rfl s

theorem opSetOutcome_counted (id : SubId) (o : SubOutcome) (s : State) : Counted s (opSetOutcome id o s) := by
  obtain ⟨d, h⟩ := opSetOutcome_eq id o s
  rw [h]
  exact .of_eq rfl rfl

theorem runOp_counted {op : HostOp} {s t : State} (hop : op ≠ .reset) (h : runOp op s = .next t) : Counted s t := by
  cases op with
  | pushByte b => exact (pushByte_receives (runOp_pushByte b s ▸ h)).counted
  | pushChunk c => exact (pushBytes_receives (runOp_pushChunk c s ▸ h)).counted
  | start o => cases h; exact opStart_counted o s
  | subscribe kc id => cases h; exact opSubscribe_counted kc id s
  | readReg n => cases h; exact opReadReg_counted n s
  | reset => exact absurd rfl hop
  | setOutcome id o => cases h; exact opSetOutcome_counted id o s
  | scriptDefaults => cases h; exact .of_eq rfl rfl

/-- Settles O35: every operation but RESET counts its drops, and RESET clears the counter with its one event. -/
theorem counterCountsTheDrops : Obligations.CounterCountsTheDrops := by
  intro op s t h
  by_cases hop : op = .reset
  · subst hop
    cases h
    exact ⟨[.reset], rfl, fun _ => rfl, fun hne => absurd rfl hne⟩
  · obtain ⟨es, htrace, hcount⟩ := runOp_counted hop h
    exact ⟨es, htrace, fun heq => absurd heq hop, fun _ => hcount⟩

/-- Settles O37: an operation appends to the trace (O35), and taking it from what is offered leaves the trace alone. -/
theorem traceOnlyGrows : Obligations.TraceOnlyGrows := by
  intro s t h
  obtain ⟨-, p, rfl | ⟨op, hop⟩⟩ := step_cases h
  · exact List.prefix_rfl
  · obtain ⟨es, htrace, -⟩ := counterCountsTheDrops op _ t hop
    exact ⟨es, htrace.symm⟩

/-! ## RUN (R26) -/

theorem opSubscribe_run (kc : BitVec 2) (id : SubId) (s : State) : (opSubscribe kc id s).run = s.run := by
  obtain ⟨why, h⟩ | ⟨k, -, -, h⟩ := opSubscribe_cases kc id s <;> simp [h]

theorem opReadReg_run (n : Nat) (s : State) : (opReadReg n s).run = s.run := by
  obtain ⟨v, h⟩ | h := opReadReg_cases n s <;> simp [h]

theorem opSetOutcome_run (id : SubId) (o : SubOutcome) (s : State) : (opSetOutcome id o s).run = s.run := by
  obtain ⟨d, h⟩ := opSetOutcome_eq id o s
  rw [h]

/-- An operation that is neither START nor RESET leaves RUN alone. -/
theorem runOp_run {op : HostOp} {s t : State} (hstart : ∀ o, op ≠ .start o) (hreset : op ≠ .reset)
    (h : runOp op s = .next t) : t.run = s.run := by
  cases op with
  | pushByte b => exact (pushByte_receives (runOp_pushByte b s ▸ h)).run
  | pushChunk c => exact (pushBytes_receives (runOp_pushChunk c s ▸ h)).run
  | start o => exact absurd rfl (hstart o)
  | subscribe kc id => cases h; exact opSubscribe_run kc id s
  | readReg n => cases h; exact opReadReg_run n s
  | reset => exact absurd rfl hreset
  | setOutcome id o => cases h; exact opSetOutcome_run id o s
  | scriptDefaults => cases h; rfl

/-- Settles O36: RESET, the three cases of START, and every other operation. -/
theorem runChangesOnlyByStartAndReset : Obligations.RunChangesOnlyByStartAndReset := by
  intro op s t h
  by_cases hreset : op = .reset
  · subst hreset
    cases h
    exact .inl ⟨rfl, rfl⟩
  refine .inr ⟨hreset, ?_⟩
  by_cases hstart : ∃ o, op = .start o
  · obtain ⟨o, rfl⟩ := hstart
    cases h
    obtain ⟨hs, rfl, heq⟩ | ⟨hs, rfl, heq⟩ | ⟨hs, heq⟩ := opStart_cases o s <;> rw [heq]
    · exact .inl ⟨hs, .inl ⟨rfl, rfl⟩⟩
    · exact .inl ⟨hs, .inr ⟨rfl, rfl⟩⟩
    · exact .inr ⟨.inl hs, rfl⟩
  · have hother : ∀ o, op ≠ .start o := fun o ho => hstart ⟨o, ho⟩
    exact .inr ⟨.inr hother, runOp_run hother hreset h⟩

/-! ## The invariant's parts -/

/-- The three forms of ACC (R112). -/
theorem accForm_iff (A : List Byte) :
    accForm A = true ↔ A = [] ∨ A = [0xAA] ∨ ∃ k, magicAt A 0 = some k ∧ A.length < k.len := by
  unfold accForm
  cases magicAt A 0 <;> simp [or_assoc]

/-- No bank outgrows N_SUB, whatever its kind (R25). -/
theorem banksFit_iff (t : SubTab) : banksFit t = true ↔ ∀ k, (t.bank k).length ≤ Config.nSub := by
  have hall : (∀ k, (t.bank k).length ≤ Config.nSub) ↔
      t.cs.length ≤ Config.nSub ∧ t.ga.length ≤ Config.nSub ∧ t.ra.length ≤ Config.nSub :=
    ⟨fun h => ⟨h .cs, h .ga, h .ra⟩, fun ⟨hcs, hga, hra⟩ k => by cases k <;> assumption⟩
  simp [banksFit, hall, and_assoc]

/-- The four parts of the invariant. -/
theorem inv_iff (s : State) :
    s.Inv ↔ accForm s.acc = true ∧ banksFit s.subtab = true ∧ (s.run = .running ∨ s.acc = []) ∧
      hangForm s = true := by
  simp [State.Inv, State.inv, and_assoc]

theorem hangForm_of_none {s : State} (h : s.inFlight = none) : hangForm s = true := by
  simp [hangForm, h]

/-- Where no delivery hangs, the invariant speaks of the record alone. -/
theorem inv_iff_of_none {s : State} (h : s.inFlight = none) :
    s.Inv ↔ accForm s.acc = true ∧ banksFit s.subtab = true ∧ (s.run = .running ∨ s.acc = []) := by
  simp [inv_iff, hangForm_of_none h]

theorem inv_of_none {s : State} (hf : s.inFlight = none) (hA : accForm s.acc = true) (hB : banksFit s.subtab = true)
    (hrun : s.run = .running ∨ s.acc = []) : s.Inv := (inv_iff_of_none hf).2 ⟨hA, hB, hrun⟩

/-- Nothing collected, banks in bounds, no delivery hanging: the invariant holds in every RUN state. -/
theorem inv_of_acc_nil {s : State} (hf : s.inFlight = none) (hA : s.acc = []) (hB : banksFit s.subtab = true) :
    s.Inv := inv_of_none hf (by rw [hA]; rfl) hB (.inr hA)

/-- Settles O51: after power-on nothing is collected, registered or delivered. -/
theorem invariantAtReset : Obligations.InvariantAtReset := inv_of_acc_nil rfl rfl rfl

/-! ## The operations keep the invariant -/

/-- An append to a bank with room keeps the banks in bounds (R151). -/
theorem banksFit_append {t : SubTab} {k : Kind} (id : SubId) (h : banksFit t = true)
    (hroom : (t.bank k).length < Config.nSub) : banksFit (t.append k id) = true := by
  rw [banksFit_iff] at h ⊢
  intro k'
  rw [bank_append]
  split
  case isTrue heq => subst heq; rw [List.length_append]; exact hroom
  case isFalse => exact h k'

theorem opSubscribe_inv (kc : BitVec 2) (id : SubId) {s : State} (hf : s.inFlight = none) (hs : s.Inv) :
    (opSubscribe kc id s).Inv := by
  obtain ⟨hA, hB, hrun⟩ := (inv_iff_of_none hf).1 hs
  obtain ⟨why, h⟩ | ⟨k, -, hroom, h⟩ := opSubscribe_cases kc id s <;> rw [h]
  · exact inv_of_none hf hA hB hrun
  · exact inv_of_none hf hA (banksFit_append id hB hroom) hrun

/-- START finds nothing collected where it changes RUN, since RUN is then STOPPED. -/
theorem opStart_inv (o : Bool) {s : State} (hf : s.inFlight = none) (hs : s.Inv) : (opStart o s).Inv := by
  obtain ⟨hA, hB, hrun⟩ := (inv_iff_of_none hf).1 hs
  have hnil : s.run = .stopped → s.acc = [] := fun h => hrun.resolve_left (by simp [h])
  obtain ⟨hstop, -, h⟩ | ⟨hstop, -, h⟩ | ⟨-, h⟩ := opStart_cases o s <;> rw [h]
  · exact inv_of_acc_nil hf (hnil hstop) hB
  · exact inv_of_acc_nil hf (hnil hstop) hB
  · exact inv_of_none hf hA hB hrun

theorem opReadReg_inv (n : Nat) {s : State} (hf : s.inFlight = none) (hs : s.Inv) : (opReadReg n s).Inv := by
  obtain ⟨hA, hB, hrun⟩ := (inv_iff_of_none hf).1 hs
  obtain ⟨v, h⟩ | h := opReadReg_cases n s <;> rw [h]
  · exact hs
  · exact inv_of_none hf hA hB hrun

theorem opSetOutcome_inv (id : SubId) (o : SubOutcome) {s : State} (hs : s.Inv) : (opSetOutcome id o s).Inv := by
  obtain ⟨d, h⟩ := opSetOutcome_eq id o s
  rw [h]
  exact hs

/-! ## The byte input keeps the invariant -/

/-- What NO_MAGIC retains is in a form of R112 (R102). -/
theorem accForm_retained (A : List Byte) : accForm (retained A) = true := by
  rw [retained_eq]
  split <;> rfl

/-- NO_MAGIC (R102) on two bytes that are no magic. -/
theorem attempt_pair_of_none {b0 b1 : Byte} (hm : magicAt [b0, b1] 0 = none) :
    attempt [b0, b1] = .stop .noMagic (retained [b0, b1]) := by
  have hfirst : firstMagic [b0, b1] = none := by
    unfold firstMagic
    rw [hm, firstMagic_single]
  rw [attempt, hfirst]

/-- A byte appended to an accumulator in a form of R112: the attempt stops with one in a form of R112 again, or the
accumulator is now exactly a candidate (R113). -/
theorem attempt_append_of_accForm {A : List Byte} (b : Byte) (hA : accForm A = true) :
    (∃ why A', attempt (A ++ [b]) = .stop why A' ∧ accForm A' = true) ∨
    ∃ k, magicAt (A ++ [b]) 0 = some k ∧ (A ++ [b]).length = k.len := by
  obtain rfl | rfl | ⟨k, hm, hl⟩ := (accForm_iff A).1 hA
  · exact .inl ⟨_, _, rfl, accForm_retained [b]⟩
  · cases hm : magicAt [0xAA, b] 0 with
    | none => exact .inl ⟨_, _, attempt_pair_of_none hm, accForm_retained _⟩
    | some k =>
      have hl : [0xAA, b].length < k.len := Nat.lt_of_lt_of_le (by decide : 2 < 5) (five_le_kind_len k)
      exact .inl ⟨_, _, attempt_short hm hl, (accForm_iff _).2 (.inr (.inr ⟨k, hm, hl⟩))⟩
  · have hm' := magicAt_zero_append hm [b]
    have hlen : (A ++ [b]).length = A.length + 1 := List.length_append
    rcases Nat.lt_or_eq_of_le (Nat.succ_le_of_lt hl) with hshort | hfull
    · have hl' : (A ++ [b]).length < k.len := hlen ▸ hshort
      exact .inl ⟨_, _, attempt_short hm' hl', (accForm_iff _).2 (.inr (.inr ⟨k, hm', hl'⟩))⟩
    · exact .inr ⟨k, hm', hlen.trans hfull⟩

/-- A byte received in a form of R112 changes the accumulator alone, to a form of R112 again, or runs the check of one
candidate with nothing left of it (R113, R114). -/
theorem drain_append_cases {b : Byte} {s t : State} (hf : s.inFlight = none) (hA : accForm s.acc = true)
    (h : drain runCandidate { s with acc := s.acc ++ [b] } = .next t) :
    (∃ A, accForm A = true ∧ t = { s with acc := A }) ∨
    ∃ k F v, checkCandidate k F v { s with acc := [] } = .next t := by
  obtain ⟨why, A, hstop, hform⟩ | ⟨k, hm, hl⟩ := attempt_append_of_accForm b hA
  · rw [drain_stop runCandidate { s with acc := s.acc ++ [b] } hstop] at h
    cases h
    exact .inl ⟨A, hform, rfl⟩
  · rw [drain_exact { s with acc := s.acc ++ [b] } hm hl hf] at h
    obtain ⟨F, v, hcheck⟩ := runCandidate_is_check k (s.acc ++ [b]) { s with acc := [] }
    exact .inr ⟨k, F, v, hcheck ▸ h⟩

/-- A delivery that a publish leaves hanging has the form of the invariant, where the unit runs and nothing is
collected (R105, R157). -/
theorem hangForm_publish (k : Kind) (v : Value) {s : State} (hf : s.inFlight = none) (hrun : s.run = .running)
    (hA : s.acc = []) : hangForm (publish k v s) = true := by
  obtain hnone | ⟨d, hd, hlast⟩ := publish_inFlight k v s hf
  · exact hangForm_of_none hnone
  · simp [hangForm, hd, hlast, hrun, hA]

theorem checkCandidate_inv {k : Kind} {F : List Byte} {v : Value} {s t : State} (hrun : s.run = .running)
    (hA : s.acc = []) (hB : banksFit s.subtab = true) (h : checkCandidate k F v s = .next t) : t.Inv := by
  obtain ⟨hf, rfl | ⟨r, c, rfl⟩⟩ := checkCandidate_cases h
  · rw [inv_iff, publish_acc, publish_subtab, publish_run, hA]
    exact ⟨rfl, hB, .inl hrun, hangForm_publish k v hf hrun hA⟩
  · exact inv_of_acc_nil hf hA hB

theorem pushByte_inv {b : Byte} {s t : State} (h : pushByte runCandidate b s = .next t) (hs : s.Inv) : t.Inv := by
  obtain ⟨hf, hcase⟩ := pushByte_cases h
  obtain ⟨hA, hB, hrun⟩ := (inv_iff_of_none hf).1 hs
  obtain ⟨hrunning, hdrain⟩ | ⟨-, rfl⟩ := hcase
  · obtain ⟨A, hform, rfl⟩ | ⟨k, F, v, hcheck⟩ := drain_append_cases hf hA hdrain
    · exact inv_of_none hf hform hB (.inl hrunning)
    · exact checkCandidate_inv (s := { s with acc := [] }) hrunning rfl hB hcheck
  · exact inv_of_none hf hA hB hrun

/-- What is offered is no part of the invariant. -/
theorem holdBack_inv (bs : List Byte) {s : State} (hs : s.Inv) : (holdBack bs s).Inv := by
  cases bs <;> exact hs

theorem pushBytes_inv {bs : List Byte} {s t : State} (h : pushBytes runCandidate bs s = .next t) (hs : s.Inv) :
    t.Inv :=
  pushBytes_rel (fun s t => s.Inv → t.Inv) (fun _ => id) (fun hst htu => htu ∘ hst) pushByte_inv
    (fun bs _ => holdBack_inv bs) h hs

theorem runOp_inv {op : HostOp} {s t : State} (hf : s.inFlight = none) (hs : s.Inv) (h : runOp op s = .next t) :
    t.Inv := by
  cases op with
  | pushByte b => exact pushByte_inv (runOp_pushByte b s ▸ h) hs
  | pushChunk c => exact pushBytes_inv (runOp_pushChunk c s ▸ h) hs
  | start o => cases h; exact opStart_inv o hf hs
  | subscribe kc id => cases h; exact opSubscribe_inv kc id hf hs
  | readReg n => cases h; exact opReadReg_inv n hf hs
  | reset => cases h; exact inv_of_acc_nil hf rfl rfl
  | setOutcome id o => cases h; exact opSetOutcome_inv id o hs
  | scriptDefaults => cases h; exact hs

/-- Settles O52: every operation keeps the invariant, and what is offered is no part of it. -/
theorem stepKeepsTheInvariant : Obligations.StepKeepsTheInvariant := by
  intro s t hs h
  obtain ⟨hf, p, rfl | ⟨op, hop⟩⟩ := step_cases h
  · exact hs
  · exact runOp_inv (s := { s with pending := p }) hf hs hop

/-! ## The status registers (R29) -/

/-- A field of value `n` placed above `i` bits that hold `m`: the two add up, where the field fits the word. -/
theorem toNat_field_or {n m i : Nat} {low : Bits32} (hlow : low.toNat = m) (hm : m < 2 ^ i)
    (hfit : n * 2 ^ i < 2 ^ 32) : (BitVec.ofNat 32 n <<< i ||| low).toNat = m + n * 2 ^ i := by
  have hn : n < 2 ^ 32 := Nat.lt_of_le_of_lt (Nat.le_mul_of_pos_right n (Nat.two_pow_pos i)) hfit
  rw [BitVec.toNat_or, BitVec.toNat_shiftLeft, BitVec.toNat_ofNat, Nat.mod_eq_of_lt hn, Nat.shiftLeft_eq,
    Nat.mod_eq_of_lt hfit, hlow, ← Nat.shiftLeft_eq, ← Nat.shiftLeft_add_eq_or_of_lt hm, Nat.add_comm]

/-- Register 2 packs the sizes of the banks in 4-bit fields, where each holds at most N_SUB entries. -/
theorem toNat_regSubCnt {s : State} (h : banksFit s.subtab = true) :
    (regSubCnt s).toNat = s.subtab.cs.length + 16 * s.subtab.ga.length + 256 * s.subtab.ra.length := by
  have hbank : ∀ k, (s.subtab.bank k).length ≤ 8 := (banksFit_iff s.subtab).1 h
  have hcs : s.subtab.cs.length ≤ 8 := hbank .cs
  have hga : s.subtab.ga.length ≤ 8 := hbank .ga
  have hra : s.subtab.ra.length ≤ 8 := hbank .ra
  have csField := (BitVec.toNat_ofNat s.subtab.cs.length 32).trans (Nat.mod_eq_of_lt (by omega))
  have gaField := toNat_field_or (i := 4) (n := s.subtab.ga.length) csField (by omega) (by omega)
  have raField := toNat_field_or (i := 8) (n := s.subtab.ra.length) gaField (by omega) (by omega)
  rw [regSubCnt, BitVec.or_assoc, raField]
  omega

theorem runState_code_lt (r : RunState) : r.code < 3 := by cases r <;> decide

theorem dec_code_lt (d : Dec) : d.code < 3 := by cases d <;> simp [Dec.code]

theorem dec_kindCode_lt (d : Dec) : d.kindCode < 4 := by
  cases d with
  | idle => decide
  | gotAA => decide
  | collect k n => exact k.kcode.isLt

/-- Register 1 packs ACC_LEN, DEC_KIND, DEC and RUN, where no more than ACC_CAP bytes are held. -/
theorem toNat_regStatus {s : State} (h : s.acc.length ≤ Config.accCap) :
    (regStatus s).toNat =
      s.run.code + 4 * (decOf s.acc).code + 16 * (decOf s.acc).kindCode + 64 * s.acc.length := by
  have hlen : s.acc.length ≤ 74 := h
  have hrun := runState_code_lt s.run
  have hdec := dec_code_lt (decOf s.acc)
  have hkind := dec_kindCode_lt (decOf s.acc)
  have runField := (BitVec.toNat_ofNat s.run.code 32).trans (Nat.mod_eq_of_lt (by omega))
  have decField := toNat_field_or (i := 2) (n := (decOf s.acc).code) runField (by omega) (by omega)
  have kindField := toNat_field_or (i := 4) (n := (decOf s.acc).kindCode) decField (by omega) (by omega)
  have lenField := toNat_field_or (i := 6) (n := s.acc.length) kindField (by omega) (by omega)
  rw [regStatus, BitVec.or_assoc, BitVec.or_assoc, lenField]
  omega

/-- A magic-led accumulator holds at least the two bytes of its magic. -/
theorem two_le_length_of_magicAt {A : List Byte} {k : Kind} (h : magicAt A 0 = some k) : 2 ≤ A.length := by
  obtain ⟨rest, rfl⟩ := head_of_magicAt h
  simp

/-- Less than a whole candidate is held, so ACC_CAP is never exceeded (R118). -/
theorem length_lt_accCap_of_accForm {A : List Byte} (h : accForm A = true) : A.length < Config.accCap := by
  obtain rfl | rfl | ⟨k, -, hl⟩ := (accForm_iff A).1 h
  · decide
  · decide
  · exact Nat.lt_of_lt_of_le hl (kind_len_le_accCap k)

/-- DEC and DEC_KIND on each of the three forms of R112, as register 1 shows them (R29). -/
theorem decOf_of_accForm {A : List Byte} (h : accForm A = true) :
    (A = [] ∧ decOf A = .idle ∧ (decOf A).code = 0 ∧ (decOf A).kindCode = 3) ∨
    (A = [0xAA] ∧ decOf A = .gotAA ∧ (decOf A).code = 1 ∧ (decOf A).kindCode = 3) ∨
    ∃ k, magicAt A 0 = some k ∧ 2 ≤ A.length ∧ A.length < k.len ∧ decOf A = .collect k A.length ∧
      (decOf A).code = 2 ∧ (decOf A).kindCode = k.kcode.toNat := by
  obtain rfl | rfl | ⟨k, hm, hl⟩ := (accForm_iff A).1 h
  · exact .inl ⟨rfl, rfl, rfl, rfl⟩
  · exact .inr (.inl ⟨rfl, rfl, rfl, rfl⟩)
  · have hdec := decOf_of_magicAt hm
    exact .inr (.inr ⟨k, hm, two_le_length_of_magicAt hm, hl, hdec, by rw [hdec]; rfl, by rw [hdec]; rfl⟩)

/-- Settles O40: the packed fields of registers 1 and 2, with DEC and DEC_KIND by the form of ACC. -/
theorem statusRegisterFields : Obligations.StatusRegisterFields := by
  intro s hs
  obtain ⟨hA, hB, -, -⟩ := (inv_iff s).1 hs
  have hlen : s.acc.length ≤ Config.accCap := Nat.le_of_lt (length_lt_accCap_of_accForm hA)
  have hbank := (banksFit_iff s.subtab).1 hB
  refine ⟨⟨(decOf s.acc).code, (decOf s.acc).kindCode, ?_, ?_⟩, hlen, toNat_regSubCnt hB, hbank .cs, hbank .ga,
    hbank .ra, rfl⟩
  · rw [toNat_regStatus hlen]
    cases s.run <;> rfl
  · obtain hnil | hAA | ⟨k, hm, h2, hl, hdec, hcode, hkind⟩ := decOf_of_accForm hA
    · exact .inl hnil
    · exact .inr (.inl hAA)
    · exact .inr (.inr ⟨k, hm, h2, hl, hdec, hcode, hkind.trans (by cases k <;> rfl)⟩)

end Sys2Proof.Machine
end

section
/-! PROOFS of 20_memory.md. One step on a cycle of any number of operations. -/

namespace Sys2Proof.Machine

/-- A cycle whose last operation is taken is over; otherwise its others stay at the head (R46). -/
theorem stillPending_eq_ite (others : List HostOp) (rest : List (List HostOp)) :
    stillPending others rest = if others = [] then rest else others :: rest := by
  cases others with
  | nil => rfl
  | cons op ops => rw [if_neg (List.cons_ne_nil op ops), stillPending]

/-- A step runs the operation taken from the head cycle, the others still offered (R46, R189). -/
theorem step_of_selectOp {s : State} {ops others : List HostOp} {op : HostOp} {rest : List (List HostOp)}
    (hf : s.inFlight = none) (hp : s.pending = ops :: rest) (hsel : selectOp ops = some (op, others)) :
    step s = runOp op { s with pending := stillPending others rest } := by
  simp only [step, stepMachine, hf, hp, hsel]

/-- Settles O46: the step on a selected operation, with what stays pending written out. -/
theorem stepRunsTheSelectedOperation : Obligations.StepRunsTheSelectedOperation := by
  intro s ops others op rest hf hp hsel
  rw [step_of_selectOp hf hp hsel, stillPending_eq_ite]

end Sys2Proof.Machine
end

section
/-! PROOFS of 30_encoding.md, the decoder and the encoder. A row of the opcode table selects the bytes its decode word
heads; the packet read from a row's bytes is the one they encode, and an encoding is that of one packet of its
format. -/

namespace Sys2Proof

/-! ## The rows of the opcode table (R81) -/

/-- A row is an inbound kind's, or one of the three outbound rows. -/
theorem mem_opTable {r : OpRow} (h : r ∈ opTable) :
    (∃ k, r = inboundRow k) ∨
    r = { format := .joystickState, opBytes := 3, mask := 0xFFFFFF, pattern := 0xAA5501, length := 16 } ∨
    r = { format := .setGains, opBytes := 3, mask := 0xFFFFFF, pattern := 0xAA5502, length := 26 } ∨
    r = { format := .resetCmd, opBytes := 3, mask := 0xFFFFFF, pattern := 0xAA5503, length := 6 } := by
  simp only [opTable, List.mem_cons, List.not_mem_nil, or_false] at h
  obtain h | h | h | h := h
  · exact .inl ⟨.cs, h⟩
  · exact .inl ⟨.ga, h⟩
  · exact .inl ⟨.ra, h⟩
  · exact .inr h

theorem inboundRow_mem (k : Kind) : inboundRow k ∈ opTable := by cases k <;> decide

/-- The decode word of an inbound row is its kind's magic (R81). -/
theorem inboundRow_opcode (k : Kind) : (inboundRow k).opcode = k.magic := by cases k <;> decide

/-- A row's mask keeps the whole decode word, and its pattern fits it. -/
theorem mask_pattern_of_mem :
    ∀ r ∈ opTable, r.mask = 2 ^ (8 * r.opBytes) - 1 ∧ r.pattern < 2 ^ (8 * r.opBytes) := by decide

/-- No row's decode word begins another's. -/
theorem eq_of_opcode_prefix : ∀ r ∈ opTable, ∀ r' ∈ opTable, r.opcode <+: r'.opcode → r = r' := by decide

/-- A packet is longer than its decode word. -/
theorem opBytes_le_length : ∀ r ∈ opTable, r.opBytes ≤ r.length := by decide

@[simp] theorem opcode_length (r : OpRow) : r.opcode.length = r.opBytes := by simp [OpRow.opcode]

/-- Bytes whose decode word is a pattern are that pattern's bytes in stream order. -/
theorem streamWord_eq_iff (bs : List Byte) {p : Nat} (hp : p < 256 ^ bs.length) :
    streamWord bs = p ↔ bs = (leBytes bs.length p).reverse := by
  constructor
  · rintro rfl
    have h := leBytes_leNat bs.reverse
    rw [List.length_reverse] at h
    rw [streamWord, h, List.reverse_reverse]
  · intro h
    rw [streamWord, h, List.reverse_reverse, leNat_leBytes, Nat.mod_eq_of_lt hp]

/-- A row selects the bytes that begin with its decode word (R81). -/
theorem selects_iff {r : OpRow} (hr : r ∈ opTable) (bs : List Byte) : r.selects bs = true ↔ r.opcode <+: bs := by
  obtain ⟨hmask, hpat⟩ := mask_pattern_of_mem r hr
  have h256 : 2 ^ (8 * r.opBytes) = 256 ^ r.opBytes := Nat.pow_mul 2 8 r.opBytes
  rw [List.prefix_iff_eq_take, opcode_length, OpRow.selects, Bool.and_eq_true, decide_eq_true_iff, beq_iff_eq]
  by_cases hl : r.opBytes ≤ bs.length
  · have hlen : (bs.take r.opBytes).length = r.opBytes := List.length_take_of_le hl
    have hword : streamWord (bs.take r.opBytes) < 2 ^ (8 * r.opBytes) := by
      have hlt := leNat_lt (bs.take r.opBytes).reverse
      rwa [List.length_reverse, hlen, ← h256] at hlt
    rw [hmask, Nat.and_two_pow_sub_one_eq_mod, Nat.mod_eq_of_lt hword,
      streamWord_eq_iff _ (by rwa [hlen, ← h256]), hlen]
    exact ⟨fun h => h.2.symm, fun h => ⟨hl, h.symm⟩⟩
  · refine ⟨fun h => absurd h.1 hl, fun h => absurd (congrArg List.length h) ?_⟩
    rw [opcode_length, List.length_take]
    omega

/-- Two rows that select the same bytes are the same row (R81). -/
theorem eq_of_selects {bs : List Byte} {r r' : OpRow} (hr : r ∈ opTable) (hr' : r' ∈ opTable)
    (h : r.selects bs = true) (h' : r'.selects bs = true) : r = r' := by
  rw [selects_iff hr] at h
  rw [selects_iff hr'] at h'
  obtain hp | hp := List.prefix_or_prefix_of_prefix h h'
  · exact eq_of_opcode_prefix r hr r' hr' hp
  · exact (eq_of_opcode_prefix r' hr' r hr hp).symm

/-- The matching row is a row of the table that selects the bytes. -/
theorem selects_of_rowOf {bs : List Byte} {r : OpRow} (h : rowOf bs = some r) :
    r ∈ opTable ∧ r.selects bs = true := by
  unfold rowOf at h
  exact ⟨List.mem_of_find?_eq_some h, List.find?_some (p := fun r : OpRow => r.selects bs) h⟩

/-- The matching row is the one whose decode word begins the bytes (R81). -/
theorem rowOf_eq_some_iff {bs : List Byte} {r : OpRow} : rowOf bs = some r ↔ r ∈ opTable ∧ r.opcode <+: bs := by
  constructor
  · intro h
    obtain ⟨hr, hsel⟩ := selects_of_rowOf h
    exact ⟨hr, (selects_iff hr bs).1 hsel⟩
  · rintro ⟨hr, hp⟩
    have hsel := (selects_iff hr bs).2 hp
    have hsome : (rowOf bs).isSome := List.find?_isSome.2 ⟨r, hr, hsel⟩
    obtain ⟨r', hr'⟩ := Option.isSome_iff_exists.1 hsome
    obtain ⟨hmem, hsel'⟩ := selects_of_rowOf hr'
    rw [hr', eq_of_selects hr hmem hsel hsel']

/-- Bytes appended do not change the matching row (R72). -/
theorem rowOf_append {bs : List Byte} {r : OpRow} (h : rowOf bs = some r) (rest : List Byte) :
    rowOf (bs ++ rest) = some r := by
  rw [rowOf_eq_some_iff] at h ⊢
  exact ⟨h.1, h.2.trans (List.prefix_append bs rest)⟩

/-- A magic occurs at the head where the bytes begin with it (R69). -/
theorem magicAt_zero_iff {A : List Byte} {k : Kind} : magicAt A 0 = some k ↔ k.magic <+: A := by
  constructor
  · intro h
    obtain ⟨rest, rfl⟩ := head_of_magicAt h
    exact ⟨rest, by rw [Kind.magic, kindTable_magic0]; rfl⟩
  · rintro ⟨rest, rfl⟩
    exact magicAt_zero_append (by cases k <;> rfl) rest

/-- The magic of a kind selects its row (R69, R81). -/
theorem rowOf_of_magicAt {bs : List Byte} {k : Kind} (h : magicAt bs 0 = some k) :
    rowOf bs = some (inboundRow k) :=
  rowOf_eq_some_iff.2 ⟨inboundRow_mem k, inboundRow_opcode k ▸ magicAt_zero_iff.1 h⟩

/-! ## The decoder by its row (R71, R81) -/

theorem decode_of_rowOf {bs : List Byte} {r : OpRow} (h : rowOf bs = some r) :
    decode bs =
      if bs.length < r.length then .error .truncated
      else .ok (readPacket r.format (bs.take r.length), bs.drop r.length) := by
  simp only [decode, h]

/-- Bytes that decode have a row, are as long as it says, and are split there. -/
theorem decode_eq_ok {bs rest : List Byte} {i : Instr} (h : decode bs = .ok (i, rest)) :
    ∃ r, rowOf bs = some r ∧ r.length ≤ bs.length ∧ i = readPacket r.format (bs.take r.length) ∧
      rest = bs.drop r.length := by
  unfold decode at h
  split at h
  case h_1 r hr =>
    split at h
    · cases h
    case isFalse hlen => cases h; exact ⟨r, hr, Nat.le_of_not_lt hlen, rfl, rfl⟩
  case h_2 => cases h

/-! ## The packet read from a row's bytes encodes to them -/

/-- An outbound packet's pieces are its bytes: the decode word, the sequence number, the fields, the trailer (R74). -/
theorem outboundBody_read {F op fields : List Byte} {n : Nat} (hop : op <+: F) (h3 : op.length = 3)
    (hlen : F.length = 4 + n + 2) (hf : fields = (F.drop 4).take n) :
    op ++ [byteAt F 3] ++ fields ++ leBytes 2 (trailerOf F).toNat = F := by
  have hseq : [byteAt F 3] = (F.drop 3).take 1 := bytesFrom_eq F 3 1 (by omega)
  have hhead : op = F.take 3 := h3 ▸ List.prefix_iff_eq_take.1 hop
  rw [leBytes_trailerOf F (by omega), hf, hseq, hhead, ← List.take_add, ← List.take_add, hlen]
  exact List.take_append_drop (4 + n) F

/-- The packet read from bytes of a row's length that begin with its decode word encodes to those bytes (R62 to R64,
R75 to R77). -/
theorem encode_readPacket {r : OpRow} (hr : r ∈ opTable) {F : List Byte} (hop : r.opcode <+: F)
    (hlen : F.length = r.length) : encode (readPacket r.format F) = F := by
  obtain ⟨k, rfl⟩ | rfl | rfl | rfl := mem_opTable hr
  · rw [inboundRow_opcode] at hop
    exact encode_frameInstr k F hlen (magicAt_zero_iff.2 hop)
  · have hl : F.length = 16 := hlen
    have hfields : leBytes 2 (read16 F 4).toNat ++ (leBytes 2 (read16 F 6).toNat ++ (leBytes 2 (read16 F 8).toNat ++
        (leBytes 2 (read16 F 10).toNat ++ leBytes 2 (read16 F 12).toNat))) = (F.drop 4).take 10 := by
      rw [leBytes_read16 F 4 (by omega), leBytes_read16 F 6 (by omega), leBytes_read16 F 8 (by omega),
        leBytes_read16 F 10 (by omega), leBytes_read16 F 12 (by omega), take_drop_join F 10 2 2,
        take_drop_join F 8 2 4, take_drop_join F 6 2 6, take_drop_join F 4 2 8]
    have h := outboundBody_read hop rfl hlen hfields
    simp only [List.append_assoc] at h
    simp only [readPacket, encode, bodyBytes, Instr.ck, List.append_assoc]
    exact h
  · exact outboundBody_read hop rfl hlen (bytes32x5_read F 4 (Nat.le_of_lt (by rw [hlen]; decide)))
  · exact outboundBody_read (n := 0) hop rfl hlen rfl

/-- Settles O2: the bytes are cut at the row's length, and the packet read from the first part encodes to it. -/
theorem encodeOfDecode : Obligations.EncodeOfDecode := by
  intro bs i rest h
  obtain ⟨r, hrow, hlen, rfl, rfl⟩ := decode_eq_ok h
  obtain ⟨hr, hop⟩ := rowOf_eq_some_iff.1 hrow
  have hop' : r.opcode <+: bs.take r.length :=
    List.prefix_take_iff.2 ⟨hop, by rw [opcode_length]; exact opBytes_le_length r hr⟩
  rw [encode_readPacket hr hop' (List.length_take_of_le hlen), List.take_append_drop]

/-! ## An encoding is that of one packet of its format -/

open Laws.EncodeShape (formatOf)

/-- A value that fits its bytes is told by them (R8). -/
theorem eq_of_leBytes {w n : Nat} (hw : w ≤ 8 * n) {x y : BitVec w} (h : leBytes n x.toNat = leBytes n y.toNat) :
    x = y := by
  have hfit : ∀ z : BitVec w, leNat (leBytes n z.toNat) = z.toNat := fun z => by
    have hz : z.toNat < 2 ^ (8 * n) := Nat.lt_of_lt_of_le z.isLt (Nat.pow_le_pow_right (by decide) hw)
    rw [leNat_leBytes, Nat.mod_eq_of_lt (by rwa [Nat.pow_mul] at hz)]
  exact BitVec.eq_of_toNat_eq (by rw [← hfit x, ← hfit y, h])

theorem leBytes16_inj {x y : Bits16} : leBytes 2 x.toNat = leBytes 2 y.toNat ↔ x = y :=
  ⟨eq_of_leBytes (by decide), fun h => h ▸ rfl⟩

theorem leBytes32_inj {x y : Bits32} : leBytes 4 x.toNat = leBytes 4 y.toNat ↔ x = y :=
  ⟨eq_of_leBytes (by decide), fun h => h ▸ rfl⟩

theorem leBytes64_inj {x y : Bits64} : leBytes 8 x.toNat = leBytes 8 y.toNat ↔ x = y :=
  ⟨eq_of_leBytes (by decide), fun h => h ▸ rfl⟩

/-- Five like fields are told by their bytes, where each is by its own. -/
theorem eq_of_flatMap_toList {α : Type} {f : α → List Byte} {n : Nat} (hlen : ∀ x, (f x).length = n)
    (hinj : ∀ {x y}, f x = f y → x = y) {v w : Five α} (h : v.toList.flatMap f = w.toList.flatMap f) : v = w := by
  have hsplit : ∀ {x y : α} {a b : List Byte}, f x ++ a = f y ++ b → x = y ∧ a = b := fun h =>
    (List.append_inj h (by rw [hlen, hlen])).imp_left hinj
  obtain ⟨h0, h⟩ := hsplit h
  obtain ⟨h1, h⟩ := hsplit h
  obtain ⟨h2, h⟩ := hsplit h
  obtain ⟨h3, h⟩ := hsplit h
  obtain ⟨h4, -⟩ := hsplit h
  cases v
  cases w
  simp_all

theorem bytes64x5_inj {v w : Five Bits64} : bytes64x5 v = bytes64x5 w ↔ v = w :=
  ⟨eq_of_flatMap_toList (fun _ => leBytes_length 8 _) leBytes64_inj.1, fun h => h ▸ rfl⟩

theorem bytes32x5_inj {v w : Five Bits32} : bytes32x5 v = bytes32x5 w ↔ v = w :=
  ⟨eq_of_flatMap_toList (fun _ => leBytes_length 4 _) leBytes32_inj.1, fun h => h ▸ rfl⟩

theorem sampleBytes_inj {s t : Sample} : sampleBytes s = sampleBytes t ↔ s = t := by
  cases s
  cases t
  simp [-leBytes_succ, sampleBytes, List.append_eq_append_iff_of_size_eq_left, leBytes32_inj, leBytes64_inj,
    bytes64x5_inj]

/-- The bytes of an inbound frame before its trailer tell its fields and the bytes around them (R60). -/
theorem inboundBody_inj {k : Kind} {pre pre' : Bytes k.preBytes} {f f' : List Byte} {post post' : Bytes k.postBytes}
    (hf : f.length = f'.length) (h : inboundBody k pre f post = inboundBody k pre' f' post') :
    pre = pre' ∧ f = f' ∧ post = post' := by
  have hpost : post.list.length = post'.list.length := by rw [post.length_eq, post'.length_eq]
  obtain ⟨h, hpost⟩ := List.append_inj' h hpost
  obtain ⟨h, hf⟩ := List.append_inj' h hf
  exact ⟨Bytes.eq_of_list (List.append_cancel_left h), hf, Bytes.eq_of_list hpost⟩

/-- Frames are equal when their three parts are. -/
theorem Framed.eq_of_parts {k : Kind} {α : Type} {f g : Framed k α} (hpre : f.pre = g.pre)
    (hfields : f.fields = g.fields) (hpost : f.post = g.post) : f = g := by
  cases f; cases g; cases hpre; cases hfields; cases hpost; rfl

/-- Two packets of one format with the same bytes are the same packet (R62 to R65, R74 to R77). -/
theorem eq_of_encode {i j : Instr} (hf : formatOf i = formatOf j) (h : encode i = encode j) : i = j := by
  have hck : i.ck = j.ck := by rw [← trailerOf_encode i, h, trailerOf_encode]
  have hbody : bodyBytes i = bodyBytes j := (List.append_inj' h (by simp)).1
  cases i <;> cases j <;> cases hf <;> cases hck
  case cs.cs =>
    obtain ⟨rfl, hs, rfl⟩ := inboundBody_inj (by simp) hbody
    rw [sampleBytes_inj.1 hs]
  case ga.ga f _ f' =>
    obtain ⟨hpre, hs, hpost⟩ := inboundBody_inj (by simp) hbody
    have hgains : f.fields = f'.fields := congrArg Gains.mk (bytes32x5_inj.1 hs)
    rw [Framed.eq_of_parts hpre hgains hpost]
  case ra.ra f _ f' =>
    obtain ⟨hpre, hs, hpost⟩ := inboundBody_inj (by rfl) hbody
    rw [Framed.eq_of_parts hpre (List.singleton_inj.1 hs) hpost]
  case joystickState.joystickState =>
    simpa [-leBytes_succ, bodyBytes, List.append_eq_append_iff_of_size_eq_left, leBytes16_inj, and_assoc] using hbody
  case setGains.setGains seq gains _ seq' gains' =>
    obtain ⟨hseq, hg⟩ : seq = seq' ∧ gains.gains = gains'.gains := by simpa [bodyBytes, bytes32x5_inj] using hbody
    have hgains : gains = gains' := congrArg Gains.mk hg
    rw [hseq, hgains]
  case resetCmd.resetCmd =>
    simpa [bodyBytes] using hbody

/-- Every packet's bytes select its row, and are as long as that row says (R81). -/
theorem encodeShape (i : Instr) : Laws.EncodeShape.Statement i := by
  cases i with
  | cs pre post sample ck => exact Laws.EncodeShape.cs pre post sample ck
  | ga gains ck => exact Laws.EncodeShape.ga gains ck
  | ra status ck => exact Laws.EncodeShape.ra status ck
  | joystickState seq axX axY rotX rotY buttons ck =>
    exact Laws.EncodeShape.joystickState seq axX axY rotX rotY buttons ck
  | setGains seq gains ck => exact Laws.EncodeShape.setGains seq gains ck
  | resetCmd seq ck => exact Laws.EncodeShape.resetCmd seq ck

@[simp] theorem formatOf_readPacket (f : Format) (F : List Byte) : formatOf (readPacket f F) = f := by
  cases f <;> rfl

/-- Settles O1: the packet read from an encoding has its format and its bytes, and so is the packet itself. -/
theorem decodeOfEncode : Obligations.DecodeOfEncode := by
  intro i rest
  obtain ⟨r, hrow, hfmt, hlen⟩ := encodeShape i
  obtain ⟨hr, hop⟩ := rowOf_eq_some_iff.1 hrow
  have hread : readPacket r.format (encode i) = i :=
    eq_of_encode (by rw [formatOf_readPacket, hfmt]) (encode_readPacket hr hop hlen)
  have hlong : ¬(encode i ++ rest).length < r.length := by simp [hlen]
  rw [decode_of_rowOf (rowOf_append hrow rest), if_neg hlong, List.take_left' hlen, List.drop_left' hlen, hread]

/-- Settles O7: a magic selects its kind's row, whose length is LEN[k]. -/
theorem lengthFromFirstTwoBytes : Obligations.LengthFromFirstTwoBytes :=
  ⟨⟨rfl, rfl, rfl⟩, fun _ _ h => decode_of_rowOf (rowOf_of_magicAt h)⟩

/-- Settles O5: the four words are evaluated; of two rows that select the same bytes, one's decode word begins the
other's. -/
theorem specWordsDecodeAndRowsAreDisjoint : Obligations.SpecWordsDecodeAndRowsAreDisjoint :=
  ⟨by decide +kernel, by decide +kernel, by decide +kernel, by decide +kernel,
    fun _ _ hr _ hr' => eq_of_selects hr hr'⟩

/-- Settles O6: AA before the second byte that the table gives the kind. -/
theorem magicOccursExactly : Obligations.MagicOccursExactly := by
  intro A i k
  have hkind : kindOf (byteAt A (i + 1)) = some k ↔ byteAt A (i + 1) = (Config.kindTable k).magic1 :=
    ⟨eq_of_kindOf _ k, fun h => h ▸ kindOf_magic1 k⟩
  rw [magicAt_eq, Option.ite_none_right_eq_some, hkind, and_assoc]
  cases k <;> rfl

end Sys2Proof
end

section
/-! PROOFS of 30_encoding.md, the checksum: the sum of the covered bytes, its largest value per kind, and the ResetAck
that matches. -/

namespace Sys2Proof

/-! ## The sum (R67) -/

theorem byteSum_eq_sum (bs : List Byte) : byteSum bs = (bs.map BitVec.toNat).sum := by
  induction bs with
  | nil => rfl
  | cons b bs ih => rw [byteSum_cons, ih, List.map_cons, List.sum_cons]

/-- Accumulating in 16 bits with wrap-around gives the sum mod 2^16 (R67). -/
theorem foldl_add_setWidth (bs : List Byte) (c : Bits16) :
    (bs.map (BitVec.setWidth 16)).foldl (· + ·) c = c + BitVec.ofNat 16 (byteSum bs) := by
  induction bs generalizing c with
  | nil => simp
  | cons b bs ih =>
    rw [List.map_cons, List.foldl_cons, ih, byteSum_cons, BitVec.ofNat_add, BitVec.add_assoc, BitVec.ofNat_toNat]

/-- The covered bytes are those at offsets 2 to `|F|` - 3 (R66). -/
theorem coveredBytes_eq (F : List Byte) :
    coveredBytes F = (List.range (F.length - 4)).map (fun i => byteAt F (i + 2)) := by
  have hcomm : ∀ i, byteAt F (i + 2) = byteAt F (2 + i) := fun i => by rw [Nat.add_comm]
  by_cases h : 4 ≤ F.length
  · rw [coveredBytes, ← bytesFrom_eq F 2 (F.length - 4) (by omega), bytesFrom]
    simp only [hcomm]
  · rw [coveredBytes, Nat.sub_eq_zero_of_le (by omega), List.take_zero, List.range_zero, List.map_nil]

theorem ckOf_eq_ofNat (F : List Byte) : ckOf F = BitVec.ofNat 16 (byteSum (coveredBytes F)) :=
  BitVec.eq_of_toNat_eq (by simp [ckOf, Config.ckMod])

/-- Settles O9: both readings are of the same list of covered bytes. -/
theorem checksumIsTheByteSum : Obligations.ChecksumIsTheByteSum := by
  intro k F hlen
  constructor
  · rw [ckOf_eq_ofNat, BitVec.toNat_ofNat, byteSum_eq_sum, coveredBytes_eq, hlen, List.map_map]
    rfl
  · have h : ckOf F = ((coveredBytes F).map (BitVec.setWidth 16)).foldl (· + ·) 0#16 := by
      rw [foldl_add_setWidth, BitVec.zero_add, ckOf_eq_ofNat]
    rwa [coveredBytes_eq, hlen, List.map_map] at h

/-! ## The range of the sum (R68) -/

/-- The largest sum a candidate of a kind can have: every covered byte 255 (R68). -/
def largestSum (k : Kind) : Nat := 255 * (k.len - 4)

/-- A candidate with every covered byte 255. -/
def fullCandidate (k : Kind) : List Byte := k.magic ++ (List.replicate (k.len - 4) 0xFF ++ [0, 0])

theorem fullCandidate_length (k : Kind) : (fullCandidate k).length = k.len := by cases k <;> rfl

theorem byteSum_fullCandidate (k : Kind) : byteSum (coveredBytes (fullCandidate k)) = largestSum k := by
  have hrep : ∀ n, byteSum (List.replicate n 0xFF) = 255 * n := fun n => by
    rw [byteSum_eq_sum, List.map_replicate, List.sum_replicate]
    exact Nat.mul_comm n 255
  rw [coveredBytes, fullCandidate_length, fullCandidate, List.drop_left' (kind_magic_length k),
    List.take_left' List.length_replicate, hrep, largestSum]

/-- No candidate's sum is above its kind's largest (R68). -/
theorem byteSum_coveredBytes_le {k : Kind} {F : List Byte} (hlen : F.length = k.len) :
    byteSum (coveredBytes F) ≤ largestSum k := by
  have hcov : (coveredBytes F).length = k.len - 4 := by rw [coveredBytes_eq, List.length_map, List.length_range, hlen]
  have hle := byteSum_le (coveredBytes F)
  rwa [hcov] at hle

/-- The modulus of the checksum never takes effect for a candidate (R68). -/
theorem ckOf_toNat_of_length {k : Kind} {F : List Byte} (hlen : F.length = k.len) :
    (ckOf F).toNat = byteSum (coveredBytes F) := by
  have hle := byteSum_coveredBytes_le hlen
  have hmax : largestSum k < 2 ^ 16 := by cases k <;> decide
  rw [ckOf_eq_ofNat, BitVec.toNat_ofNat, Nat.mod_eq_of_lt (Nat.lt_of_le_of_lt hle hmax)]

/-- A ResetAck that matches carries its status byte as its trailer (R68). -/
theorem ra_of_match {F : List Byte} (hlen : F.length = Kind.ra.len) (hm : magicAt F 0 = some .ra)
    (h : ckOf F = trailerOf F) : ∃ st : Byte, F = [0xAA, 0xEE, st, st, 0x00] := by
  obtain ⟨rest, rfl⟩ := head_of_magicAt hm
  have hrest : rest.length = 3 := by simpa using hlen
  obtain ⟨st, lo, hi, rfl⟩ := List.length_eq_three.1 hrest
  have hck := ckOf_toNat_of_length hlen
  rw [h, trailerOf_toNat (by simp)] at hck
  have hsum : lo.toNat + 256 * hi.toNat = st.toNat := hck
  have hst := st.isLt
  have hlo : lo = st := BitVec.eq_of_toNat_eq (by omega)
  have hhi : hi = 0 := BitVec.eq_of_toNat_eq (show hi.toNat = 0 by omega)
  rw [hlo, hhi]
  exact ⟨st, rfl⟩

/-- A trailer above the largest sum never matches (R68). -/
theorem ckOf_ne_of_largestSum_lt {k : Kind} {F : List Byte} (hlen : F.length = k.len)
    (h : largestSum k < (trailerOf F).toNat) : ckOf F ≠ trailerOf F := by
  intro heq
  have hle := byteSum_coveredBytes_le hlen
  rw [← heq, ckOf_toNat_of_length hlen] at h
  omega

/-- Settles O10: every covered byte is at most 255, and a candidate of each kind has them all 255. -/
theorem checksumRange : Obligations.ChecksumRange := by
  refine ⟨fun k => ⟨fullCandidate k, fullCandidate_length k, magicAt_zero_iff.2 (List.prefix_append _ _), ?_⟩,
    fun k F hlen hm => ⟨ckOf_toNat_of_length hlen, ?_, ?_, ?_⟩⟩
  · rw [byteSum_fullCandidate]
    cases k <;> rfl
  · have hle := byteSum_coveredBytes_le hlen
    cases k <;> exact hle
  · have hne := ckOf_ne_of_largestSum_lt hlen
    cases k <;> exact hne
  · rintro rfl
    exact ra_of_match hlen hm

end Sys2Proof
end

section
/-! PROOFS of 30_encoding.md, the receive stream: bytes in which no magic stands, the bytes of a whole frame, the
outbound packets, and the bench's lines about outcomes. -/

namespace Sys2Proof.Machine

/-! ## Bytes with no magic (R70, R102) -/

/-- No magic stands in a sequence where none stands at its head or in its tail (R100). -/
theorem magicFree_cons_cons (b0 b1 : Byte) (rest : List Byte) :
    MagicFree (b0 :: b1 :: rest) ↔ magicAt [b0, b1] 0 = none ∧ MagicFree (b1 :: rest) := by
  rw [magicAt_zero_cons, ← magicAt_zero_cons b0 b1 rest]
  unfold MagicFree
  rw [firstMagic]
  cases magicAt (b0 :: b1 :: rest) 0 with
  | some k => simp
  | none => cases firstMagic (b1 :: rest) <;> simp

theorem MagicFree.tail {b : Byte} {A : List Byte} (h : MagicFree (b :: A)) : MagicFree A := by
  cases A with
  | nil => rfl
  | cons b1 rest => exact ((magicFree_cons_cons b b1 rest).1 h).2

theorem MagicFree.suffix {A B : List Byte} (h : MagicFree B) (hs : A <:+ B) : MagicFree A := by
  obtain ⟨C, rfl⟩ := hs
  induction C with
  | nil => exact h
  | cons c C ih => exact ih h.tail

theorem MagicFree.of_append {A B : List Byte} (h : MagicFree (A ++ B)) : MagicFree A := by
  induction A with
  | nil => rfl
  | cons b0 A ih =>
    cases A with
    | nil => rfl
    | cons b1 rest =>
      obtain ⟨hhead, htail⟩ := (magicFree_cons_cons b0 b1 (rest ++ B)).1 h
      exact (magicFree_cons_cons b0 b1 rest).2 ⟨hhead, ih htail⟩

/-- NO_MAGIC (R102). -/
theorem attempt_of_magicFree {A : List Byte} (h : MagicFree A) : attempt A = .stop .noMagic (retained A) := by
  rw [attempt, h]

/-- What is retained ends the sequence. -/
theorem retained_suffix (A : List Byte) : retained A <:+ A := by
  rw [retained_eq]
  split
  case isTrue h =>
    obtain ⟨B, rfl⟩ := List.getLast?_eq_some_iff.1 h
    exact List.suffix_append B _
  case isFalse => exact List.nil_suffix

theorem retained_concat (A : List Byte) (b : Byte) : retained (A ++ [b]) = if b = 0xAA then [0xAA] else [] := by
  simp only [retained_eq, List.getLast?_concat, Option.some.injEq]

/-- What was discarded earlier has no part in what is retained later (R102). -/
theorem retained_append (A B : List Byte) : retained (retained A ++ B) = retained (A ++ B) := by
  obtain rfl | ⟨B, b, rfl⟩ := List.eq_nil_or_concat' B
  · rw [List.append_nil, List.append_nil, retained_eq A]
    split <;> rfl
  · rw [← List.append_assoc, ← List.append_assoc, retained_concat, retained_concat]

/-- What is retained of an accumulator that holds nothing of a candidate is all of it (R112). -/
theorem State.Between.retained_acc {s : State} (h : s.Between) : retained s.acc = s.acc := by
  obtain h | h := h <;> rw [h] <;> rfl

/-- Bytes that form no magic with the retained byte are garbage: they emit nothing and only a final AA is held (R70,
R102). -/
theorem pushBytes_magicFree (run : Executor) {bs : List Byte} {s : State} (h : s.Accepts)
    (hret : retained s.acc = s.acc) (hfree : MagicFree (s.acc ++ bs)) :
    pushBytes run bs s = .next { s with acc := retained (s.acc ++ bs) } := by
  induction bs generalizing s with
  | nil => rw [List.append_nil, hret]; rfl
  | cons b bs ih =>
    have happ : s.acc ++ b :: bs = (s.acc ++ [b]) ++ bs := by simp
    rw [happ] at hfree ⊢
    have hbyte : pushByte run b s = .next { s with acc := retained (s.acc ++ [b]) } := by
      rw [pushByte_accepts run b s h]
      exact drain_stop run { s with acc := s.acc ++ [b] } (attempt_of_magicFree hfree.of_append)
    have hidem : retained (retained (s.acc ++ [b])) = retained (s.acc ++ [b]) := by
      simpa using retained_append (s.acc ++ [b]) []
    have hsuffix : retained (s.acc ++ [b]) ++ bs <:+ s.acc ++ [b] ++ bs := by
      obtain ⟨C, hC⟩ := retained_suffix (s.acc ++ [b])
      exact ⟨C, by rw [← List.append_assoc, hC]⟩
    rw [pushBytes_cons run b bs hbyte h.2,
      ih (s := { s with acc := retained (s.acc ++ [b]) }) h hidem (hfree.suffix hsuffix), retained_append]

/-- Settles O8: the two bytes are magic-free. -/
theorem notAFrameIsDiscarded : Obligations.NotAFrameIsDiscarded := by
  intro b0 b1 s hno hacc hnil
  have hnone : magicAt [b0, b1] 0 = none := by
    rw [magicAt_zero_cons]
    split
    case isFalse => rfl
    case isTrue h0 =>
      cases hk : kindOf b1 with
      | none => rfl
      | some k =>
        have h1 := eq_of_kindOf b1 k hk
        cases k <;> simp_all [Config.kindTable]
  have hfree : MagicFree (s.acc ++ [b0, b1]) := by
    rw [hnil]
    exact (magicFree_cons_cons b0 b1 []).2 ⟨hnone, rfl⟩
  rw [pushBytes_magicFree execCandidate hacc (by rw [hnil]; rfl) hfree, hnil]
  exact congrArg (fun A => Host.Outcome.next { s with acc := A }) (retained_concat [b0] b1)

/-! ## The outbound packets (R79) -/

/-- An outbound packet is its bytes on the receive stream (R79). -/
theorem exec_outbound {i : Instr} (h : i.kind = none) (s : State) : exec i s = pushBytes runCandidate (encode i) s := by
  cases i with
  | cs pre post sample ck => cases h
  | ga gains ck => cases h
  | ra status ck => cases h
  | joystickState seq axX axY rotX rotY buttons ck => rfl
  | setGains seq gains ck => rfl
  | resetCmd seq ck => rfl

/-- An outbound packet begins with AA, which is no second byte of a magic (R73, R74). -/
theorem encode_outbound_cons {i : Instr} (h : i.kind = none) : ∃ rest, encode i = 0xAA :: rest := by
  cases i with
  | cs pre post sample ck => cases h
  | ga gains ck => cases h
  | ra status ck => cases h
  | joystickState seq axX axY rotX rotY buttons ck => exact ⟨_, rfl⟩
  | setGains seq gains ck => exact ⟨_, rfl⟩
  | resetCmd seq ck => exact ⟨_, rfl⟩

/-- Settles O22: a retained AA and the packet's first AA form no magic, so all of it is magic-free. -/
theorem outboundIsGarbage : Obligations.OutboundIsGarbage := by
  intro i s hk hacc hbetween hfree
  obtain ⟨rest, hrest⟩ := encode_outbound_cons hk
  have hall : MagicFree (s.acc ++ encode i) := by
    obtain h | h := hbetween <;> rw [h]
    · exact hfree
    · rw [hrest] at hfree ⊢
      exact (magicFree_cons_cons 0xAA 0xAA rest).2 ⟨rfl, hfree⟩
  have hlast : (s.acc ++ encode i).getLast? = (encode i).getLast? := by
    rw [hrest]
    simp [List.getLast?_cons]
  rw [exec_outbound hk, pushBytes_magicFree runCandidate hacc hbetween.retained_acc hall, retained_eq, hlast]

/-! ## Bytes always complete (R92, R157) -/

theorem runCandidate_completes (k : Kind) (F : List Byte) {s : State} (h : s.inFlight = none) :
    ∃ t, runCandidate k F s = .next t := by
  obtain ⟨G, v, hcheck⟩ := runCandidate_is_check k F s
  exact ⟨_, hcheck.trans (checkCandidate_eq k G v s h)⟩

theorem drainFuel_completes (n : Nat) {s : State} (h : s.inFlight = none) :
    ∃ t, drainFuel runCandidate n s = .next t := by
  induction n generalizing s with
  | zero => exact ⟨s, rfl⟩
  | succ n ih =>
    rw [drainFuel]
    split
    case h_1 => exact ⟨_, rfl⟩
    case h_2 k F rest _ =>
      obtain ⟨t, ht⟩ := runCandidate_completes k F (s := { s with acc := rest }) h
      simp only [ht]
      split
      case isTrue => exact ⟨t, rfl⟩
      case isFalse hf => exact ih (by simpa using hf)

theorem pushByte_completes (b : Byte) {s : State} (h : s.inFlight = none) :
    ∃ t, pushByte runCandidate b s = .next t := by
  cases hrun : s.run with
  | running =>
    rw [pushByte_accepts runCandidate b s ⟨hrun, h⟩]
    exact drainFuel_completes _ h
  | stopped => exact ⟨emit (.refused .pushByte) s, by simp only [pushByte, h, hrun]⟩
  | failed => exact ⟨emit (.refused .pushByte) s, by simp only [pushByte, h, hrun]⟩

theorem pushBytes_completes (bs : List Byte) {s : State} (h : s.inFlight = none) :
    ∃ t, pushBytes runCandidate bs s = .next t := by
  induction bs generalizing s with
  | nil => exact ⟨s, rfl⟩
  | cons b bs ih =>
    obtain ⟨u, hu⟩ := pushByte_completes b h
    simp only [pushBytes, hu]
    split
    case isTrue => exact ⟨_, rfl⟩
    case isFalse hf => exact ih (by simpa using hf)

/-- Settles O24: an outbound packet is a chunk of bytes, which completes; the frame of the byte input says what that leaves
alone. -/
theorem outboundLeavesTheRest : Obligations.OutboundLeavesTheRest := by
  intro i s hk hf
  obtain ⟨t, ht⟩ := pushBytes_completes (encode i) hf
  obtain ⟨hrun, hsubtab, hanswer, hdraws, es, htrace, -⟩ := pushBytes_receives ht
  exact ⟨t, (exec_outbound hk s).trans ht, hrun, hsubtab, hanswer, hdraws, es, htrace.symm⟩

/-! ## The outcome lines (R80) -/

/-- The latest setting of a subscriber is its outcome (R80). -/
theorem scriptedOutcome_cons (id id' : SubId) (o : SubOutcome) (set : List (SubId × SubOutcome)) :
    scriptedOutcome ((id, o) :: set) id' = if id = id' then o else scriptedOutcome set id' := rfl

theorem drawOutcome_scripted {s : State} {set : List (SubId × SubOutcome)} (h : s.draws = .scripted set) (id : SubId) :
    drawOutcome s id = scriptedOutcome set id := by
  rw [drawOutcome, h]

/-- An OUTCOME line makes the outcomes a script's, its setting first and the settings so far after it (R80). -/
theorem opSetOutcome_draws (id : SubId) (o : SubOutcome) (s : State) :
    ∃ set, (opSetOutcome id o s).draws = .scripted ((id, o) :: set) ∧
      (s.draws ≠ .free → s.draws = .scripted set) := by
  unfold opSetOutcome
  split
  case h_1 h => exact ⟨[], rfl, fun hne => absurd h hne⟩
  case h_2 set h => exact ⟨set, rfl, fun _ => h⟩

/-- Settles O33: the settings an OUTCOME line leaves, read by the draw. -/
theorem outcomeLinesSetTheDraws : Obligations.OutcomeLinesSetTheDraws := by
  intro s
  refine ⟨⟨opScriptDefaults s, rfl, ⟨rfl, rfl, rfl, rfl⟩, rfl, fun _ => rfl⟩, fun id o => ?_⟩
  obtain ⟨d, heq⟩ := opSetOutcome_eq id o s
  obtain ⟨set, hset, hold⟩ := opSetOutcome_draws id o s
  refine ⟨opSetOutcome id o s, rfl, ?_, by rw [heq], fun n => ?_, fun hne id' hid => ?_⟩
  · rw [heq]; exact ⟨rfl, rfl, rfl, rfl⟩
  · rw [drawOutcome_scripted (s := { opSetOutcome id o s with drawCount := n }) hset, scriptedOutcome_cons, if_pos rfl]
  · rw [drawOutcome_scripted hset, drawOutcome_scripted (hold hne), scriptedOutcome_cons, if_neg hid.symm]

/-! ## A whole frame on the receive stream (R113) -/

/-- The bytes that complete a candidate run it, with nothing left of it; a delivery it leaves hanging holds back no byte
(R113, R114). -/
theorem pushBytes_complete {k : Kind} {bs : List Byte} {s : State} (h : s.Accepts) (hm : magicAt s.acc 0 = some k)
    (hne : bs ≠ []) (hl : s.acc.length + bs.length = k.len) :
    pushBytes runCandidate bs s = runCandidate k (s.acc ++ bs) { s with acc := [] } := by
  induction bs generalizing s with
  | nil => exact absurd rfl hne
  | cons b bs ih =>
    cases bs with
    | nil =>
      obtain ⟨t, ht⟩ := runCandidate_completes k (s.acc ++ [b]) (s := { s with acc := [] }) h.2
      simp [pushBytes, pushByte_complete b s h hm hl, ht, holdBack]
    | cons b' bs =>
      rw [List.length_cons, List.length_cons] at hl
      have hbyte := pushByte_collect runCandidate b s h hm (by omega)
      have hlen : (s.acc ++ [b]).length + (b' :: bs).length = k.len := by simp; omega
      rw [pushBytes_cons runCandidate b _ hbyte h.2,
        ih (s := { s with acc := s.acc ++ [b] }) h (magicAt_zero_append hm [b]) (List.cons_ne_nil b' bs) hlen,
        List.append_assoc, List.singleton_append]

/-- From IDLE a magic-led sequence of its kind's length is a candidate and runs as one (R113). -/
theorem pushBytes_candidate {k : Kind} {F : List Byte} {s : State} (h : s.Accepts) (hnil : s.acc = [])
    (hm : magicAt F 0 = some k) (hlen : F.length = k.len) : pushBytes runCandidate F s = runCandidate k F s := by
  obtain ⟨rest, rfl⟩ := head_of_magicAt hm
  have hfive := five_le_kind_len k
  rw [List.length_cons, List.length_cons] at hlen
  have hne : rest ≠ [] := by
    rintro rfl
    rw [List.length_nil] at hlen
    omega
  have hm2 : magicAt [0xAA, (Config.kindTable k).magic1] 0 = some k := by
    rw [magicAt_zero_cons, if_pos rfl, kindOf_magic1]
  have hfirst : pushByte runCandidate 0xAA s = .next { s with acc := [0xAA] } := by
    rw [pushByte_accepts runCandidate 0xAA s h, hnil]
    rfl
  have hsecond : pushByte runCandidate (Config.kindTable k).magic1 { s with acc := [0xAA] } =
      .next { s with acc := [0xAA, (Config.kindTable k).magic1] } := by
    rw [pushByte_accepts runCandidate _ { s with acc := [0xAA] } h]
    exact drain_stop runCandidate _ (attempt_short hm2 (Nat.lt_of_lt_of_le (by decide : 2 < 5) hfive))
  have hs : { s with acc := [] } = s := by rw [← hnil]
  rw [pushBytes_cons runCandidate _ _ hfirst h.2, pushBytes_cons runCandidate _ _ hsecond h.2,
    pushBytes_complete (s := { s with acc := [0xAA, (Config.kindTable k).magic1] }) h hm2 hne
      (by simp only [List.length_cons, List.length_nil]; omega)]
  exact congrArg (runCandidate k (0xAA :: (Config.kindTable k).magic1 :: rest)) hs

/-- The frame read from an inbound frame's bytes is that frame (R105). -/
theorem frameInstr_encode {i : Instr} {k : Kind} (h : i.kind = some k) : frameInstr k (encode i) = i := by
  have hfmt : Laws.EncodeShape.formatOf i = k.format := by cases i <;> cases h <;> rfl
  exact eq_of_encode (hfmt ▸ formatOf_readPacket _ _)
    (encode_frameInstr k (encode i) (encode_length_of_kind i k h) (magicAt_encode i k h))

/-- The bytes of an instruction, received from IDLE, run it: a frame as the candidate they make, an outbound packet as
the bytes themselves (R79, R105). -/
theorem pushBytes_encode (i : Instr) {s : State} (h : s.Accepts) (hnil : s.acc = []) :
    pushBytes runCandidate (encode i) s = exec i s := by
  cases hk : i.kind with
  | none => exact (exec_outbound hk s).symm
  | some k =>
    rw [pushBytes_candidate h hnil (magicAt_encode i k hk) (encode_length_of_kind i k hk), ← execCandidate_eq,
      execCandidate, frameInstr_encode hk]

/-! ## A word of the opcode table -/

/-- The bytes of a word are cut at the length of their row. -/
theorem tableInstrBytes_length_le {nbits w : Nat} {r : OpRow} (h : rowOf (tableInstrBytes nbits w) = some r) :
    (tableInstrBytes nbits w).length ≤ r.length := by
  have hcut : ∀ {bs : List Byte} {n : Nat}, rowOf (bs.take n) = some r → rowOf bs = some r := fun {bs n} hrow =>
    List.take_append_drop n bs ▸ rowOf_append hrow (bs.drop n)
  simp only [tableInstrBytes] at h ⊢
  split at h
  case h_1 r' hr' =>
    have hrr : r' = r := Option.some_inj.1 (hr'.symm.trans (hcut h))
    rw [hrr]
    exact List.length_take_le r.length _
  case h_2 hnone => rw [hcut h] at hnone; cases hnone

/-- The bytes of a word that decodes are the encoding of what it decodes to, and no more. -/
theorem tableInstrBytes_eq_encode {nbits w : Nat} {i : Instr} (h : decodeTableWord nbits w = some i) :
    tableInstrBytes nbits w = encode i := by
  unfold decodeTableWord at h
  split at h
  case h_1 j rest hdec =>
    cases h
    obtain ⟨r, hrow, -, -, rfl⟩ := decode_eq_ok hdec
    have henc := encodeOfDecode _ _ _ hdec
    rwa [List.drop_of_length_le (tableInstrBytes_length_le hrow), List.append_nil, eq_comm] at henc
  case h_2 => cases h

/-- Settles O49: the one operation offered is the chunk of the instruction's bytes, received from IDLE. -/
theorem withFetchWordRunsTheWord : Obligations.WithFetchWordRunsTheWord := by
  intro s nbits w i h
  have hstep : step (s.withFetchWord nbits w) =
      runOp (.pushChunk (encode i)) { s with run := .running, acc := [], inFlight := none } := by
    rw [← tableInstrBytes_eq_encode h]
    exact step_single rfl rfl
  rw [hstep, runOp_pushChunk]
  exact pushBytes_encode i ⟨rfl, rfl⟩ rfl

end Sys2Proof.Machine
end

section
/-! PROOFS of 40_input.md. Bytes refused one by one, a frame received from IDLE or GOT_AA, and the steps that run them. -/

namespace Sys2Proof.Machine

/-! ## The packet of an instruction as bytes -/

/-- An inbound frame's bytes, as a candidate, run the frame (R105, R131 to R133). -/
theorem runCandidate_encode {i : Instr} {k : Kind} (h : i.kind = some k) (s : State) :
    runCandidate k (encode i) s = exec i s := by
  rw [← execCandidate_eq, execCandidate, frameInstr_encode h]

/-- A magic AA received with nothing of a candidate held is all that is then held: an AA held before it is garbage (R70,
R113). -/
theorem pushByte_AA_of_between (run : Executor) {s : State} (h : s.Accepts) (hb : s.Between) :
    pushByte run 0xAA s = .next { s with acc := [0xAA] } := by
  have hstop : attempt (s.acc ++ [0xAA]) = .stop .noMagic [0xAA] := by
    obtain hnil | hAA := hb
    · rw [hnil]; rfl
    · rw [hAA]; rfl
  rw [pushByte_accepts run 0xAA s h]
  exact drain_stop run { s with acc := s.acc ++ [0xAA] } hstop

/-- From GOT_AA, bytes that begin with AA are received as from IDLE (R113). -/
theorem pushBytes_AA_of_between (run : Executor) (bs : List Byte) {s : State} (h : s.Accepts) (hb : s.Between) :
    pushBytes run (0xAA :: bs) s = pushBytes run (0xAA :: bs) { s with acc := [] } := by
  have hidle := pushByte_AA_of_between run (s := { s with acc := [] }) h (.inl rfl)
  rw [pushBytes_cons run 0xAA bs (pushByte_AA_of_between run h hb) h.2, pushBytes_cons run 0xAA bs hidle h.2]

/-- A whole inbound frame received from IDLE or GOT_AA runs as the frame, with nothing left of it (R113, R140). -/
theorem pushBytes_encode_of_between {i : Instr} {k : Kind} (hk : i.kind = some k) {s : State} (h : s.Accepts)
    (hb : s.Between) : pushBytes runCandidate (encode i) s = exec i { s with acc := [] } := by
  have hIdle := pushBytes_encode i (s := { s with acc := [] }) h rfl
  obtain ⟨rest, hrest⟩ := head_of_magicAt (magicAt_encode i k hk)
  rw [hrest] at hIdle ⊢
  rw [pushBytes_AA_of_between runCandidate _ h hb, hIdle]

/-- Settles O48: the step runs the chunk; a frame is received from IDLE or GOT_AA, and an outbound packet is its bytes. -/
theorem stepRunsTheWholePacket : Obligations.StepRunsTheWholePacket := by
  intro s i rest hp
  have hstep (hf : s.inFlight = none) : step s = pushBytes runCandidate (encode i) { s with pending := rest } :=
    (step_single hf hp).trans (runOp_pushChunk _ _)
  constructor
  · intro k hk hacc hb
    rw [hstep hacc.2]
    exact pushBytes_encode_of_between (s := { s with pending := rest }) hk hacc hb
  · intro hk hf
    rw [hstep hf, exec_outbound hk]

/-! ## Bytes refused (R92, R172) -/

/-- A byte is refused unless the unit runs (R172). -/
theorem pushByte_refused (run : Executor) (b : Byte) {s : State} (hf : s.inFlight = none) (hrun : s.run ≠ .running) :
    pushByte run b s = .next (emit (.refused .pushByte) s) := by
  cases hr : s.run with
  | running => exact absurd hr hrun
  | stopped => simp only [pushByte, hf, hr]
  | failed => simp only [pushByte, hf, hr]

/-- Each byte of a chunk is refused by itself, and nothing else changes (R92). -/
theorem pushBytes_refused (run : Executor) (bs : List Byte) {s : State} (hf : s.inFlight = none)
    (hrun : s.run ≠ .running) :
    pushBytes run bs s = .next { s with trace := s.trace ++ List.replicate bs.length (.refused .pushByte) } := by
  induction bs generalizing s with
  | nil => rw [List.length_nil, List.replicate_zero, List.append_nil]; rfl
  | cons b bs ih =>
    rw [pushBytes_cons run b bs (pushByte_refused run b hf hrun) hf, ih (s := emit (.refused .pushByte) s) hf hrun,
      emit_trace, List.append_assoc, List.singleton_append, ← List.replicate_succ]
    rfl

/-- Settles O23: an outbound packet is its bytes, each refused. -/
theorem outboundIsRefusedUnlessRunning : Obligations.OutboundIsRefusedUnlessRunning := by
  intro i s hk hf hrun
  rw [exec_outbound hk, pushBytes_refused runCandidate (encode i) hf hrun]

/-! ## One step (R90, R93) -/

/-- Settles O47: what decodes with no byte left is the frame's encoding, so the byte completes a candidate and the drain
runs it. -/
theorem stepRunsTheDecodedFrame : Obligations.StepRunsTheDecodedFrame := by
  intro s b rest i k hacc hp hk hdec
  have henc : encode i = s.acc ++ [b] := (List.append_nil _).symm.trans (encodeOfDecode _ _ _ hdec)
  have hm : magicAt (s.acc ++ [b]) 0 = some k := henc ▸ magicAt_encode i k hk
  have hlen : (s.acc ++ [b]).length = k.len := henc ▸ encode_length_of_kind i k hk
  rw [step_single hacc.2 hp, runOp_pushByte, pushByte_accepts runCandidate b { s with pending := rest } hacc,
    drain_exact { s with acc := s.acc ++ [b], pending := rest } hm hlen hacc.2]
  simp only [← henc, runCandidate_encode hk]

/-- A step with nothing offered changes nothing (R198). -/
theorem step_of_pending_nil {s : State} (hf : s.inFlight = none) (hp : s.pending = []) : step s = .next s := by
  simp only [step, stepMachine, hf, hp]

/-- Settles O50: a step with nothing offered, and one that runs the chunk of no bytes. -/
theorem nothingOfferedChangesNothing : Obligations.NothingOfferedChangesNothing :=
  fun _ hf => ⟨step_of_pending_nil hf, fun _ hp => step_single hf hp⟩

end Sys2Proof.Machine
end

section
/-! PROOFS of 41_frame_decoder.md, the search and the attempt: the least offset of a magic, what an attempt takes, what
bytes appended later change of it, and how many attempts a drain makes. -/

namespace Sys2Proof.Machine

/-! ## The search (R100, R101) -/

/-- Dropping bytes moves a magic to a smaller offset. -/
theorem magicAt_drop (A : List Byte) (p i : Nat) : magicAt (A.drop p) i = magicAt A (p + i) := by
  have hlen : i + 1 < (A.drop p).length ↔ p + i + 1 < A.length := by rw [List.length_drop]; omega
  simp only [magicAt_eq, byteAt_drop, hlen, Nat.add_assoc]

/-- A magic is two bytes, both held (R69). -/
theorem lt_length_of_magicAt {A : List Byte} {i : Nat} {k : Kind} (h : magicAt A i = some k) : i + 1 < A.length :=
  ((magicOccursExactly A i k).1 h).1

/-- Bytes appended after two held bytes do not change whether these are a magic (R69). -/
theorem magicAt_append {A : List Byte} {i : Nat} (h : i + 1 < A.length) (B : List Byte) :
    magicAt (A ++ B) i = magicAt A i := by
  have h' : i + 1 < (A ++ B).length := by rw [List.length_append]; omega
  simp only [magicAt_eq, h, h', byteAt_append_left B h, byteAt_append_left B (Nat.lt_of_succ_lt h)]

/-- Where no magic begins at the head, the search goes on behind it (R100). -/
theorem firstMagic_cons {b : Byte} {A : List Byte} (h : magicAt (b :: A) 0 = none) :
    firstMagic (b :: A) = (firstMagic A).map (fun q => (q.1 + 1, q.2)) := by
  cases A with
  | nil => rfl
  | cons b1 rest =>
    rw [firstMagic, h]
    cases firstMagic (b1 :: rest) <;> rfl

/-- FIRST_MAGIC is an offset of a magic, with none at a smaller one (R100, R101). -/
theorem magicAt_of_firstMagic {A : List Byte} {p : Nat} {k : Kind} (h : firstMagic A = some (p, k)) :
    magicAt A p = some k ∧ ∀ j < p, magicAt A j = none := by
  induction A generalizing p with
  | nil => cases h
  | cons b A ih =>
    cases hm : magicAt (b :: A) 0 with
    | some k' =>
      rw [firstMagic_of_magicAt hm] at h
      cases h
      exact ⟨hm, fun j hj => absurd hj (Nat.not_lt_zero j)⟩
    | none =>
      rw [firstMagic_cons hm, Option.map_eq_some_iff] at h
      obtain ⟨⟨q, k'⟩, hq, heq⟩ := h
      cases heq
      obtain ⟨hat, hleast⟩ := ih hq
      refine ⟨(magicAt_succ_cons b A q).trans hat, fun j hj => ?_⟩
      cases j with
      | zero => exact hm
      | succ j => exact (magicAt_succ_cons b A j).trans (hleast j (by omega))

/-- Where the search finds none, no magic occurs (R100). -/
theorem MagicFree.magicAt_eq_none {A : List Byte} (h : MagicFree A) (j : Nat) : magicAt A j = none := by
  have hsuffix : MagicFree (A.drop j) := h.suffix (List.drop_suffix j A)
  cases hm : magicAt A j with
  | none => rfl
  | some k =>
    have hhead : magicAt (A.drop j) 0 = some k := (magicAt_drop A j 0).trans hm
    rw [MagicFree, firstMagic_of_magicAt hhead] at hsuffix
    cases hsuffix

/-- FIRST_MAGIC, as an offset (R100, R101). -/
theorem firstMagic_eq_some_iff {A : List Byte} {p : Nat} {k : Kind} :
    firstMagic A = some (p, k) ↔ magicAt A p = some k ∧ ∀ j < p, magicAt A j = none := by
  refine ⟨magicAt_of_firstMagic, fun ⟨hat, hleast⟩ => ?_⟩
  cases hf : firstMagic A with
  | none => rw [MagicFree.magicAt_eq_none hf p] at hat; cases hat
  | some q =>
    obtain ⟨hat', hleast'⟩ := magicAt_of_firstMagic hf
    have hp : q.1 = p := by
      rcases Nat.lt_trichotomy q.1 p with hlt | heq | hgt
      · rw [hleast _ hlt] at hat'; cases hat'
      · exact heq
      · rw [hleast' _ hgt] at hat; cases hat
    rw [hp, hat] at hat'
    cases hat'
    rw [← hp]

/-- A magic ends in no byte that begins one (R73). -/
theorem magicAt_succ_of_magicAt {A : List Byte} {i : Nat} {k : Kind} (h : magicAt A i = some k) :
    magicAt A (i + 1) = none := by
  have hsecond : byteAt A (i + 1) ≠ 0xAA := by
    rw [((magicOccursExactly A i k).1 h).2.2]
    cases k <;> decide
  rw [magicAt_eq, if_neg fun hfirst => hsecond hfirst.2]

/-- Settles O14: the search goes from the head on. -/
theorem firstMagicIsTheLeast : Obligations.FirstMagicIsTheLeast := by
  refine fun A => ⟨fun p k => firstMagic_eq_some_iff, ⟨MagicFree.magicAt_eq_none, fun hnone => ?_⟩,
    fun i k => magicAt_succ_of_magicAt⟩
  cases hf : firstMagic A with
  | none => rfl
  | some q =>
    have hat := (magicAt_of_firstMagic hf).1
    rw [hnone] at hat
    cases hat

/-! ## One attempt (R102 to R105) -/

section attempt
variable {A F rest : List Byte} {p : Nat} {k : Kind}

/-- WAIT (R104). -/
theorem attempt_wait (hf : firstMagic A = some (p, k)) (hl : (A.drop p).length < k.len) :
    attempt A = .stop .truncated (A.drop p) := by
  simp only [attempt, hf, if_pos hl]

/-- EXTRACT (R105). -/
theorem attempt_extract (hf : firstMagic A = some (p, k)) (hl : k.len ≤ (A.drop p).length) :
    attempt A = .candidate k ((A.drop p).take k.len) ((A.drop p).drop k.len) := by
  simp only [attempt, hf, if_neg (Nat.not_lt.2 hl)]

/-- The three ends of an attempt: NO_MAGIC, WAIT and EXTRACT (R102 to R105). -/
theorem attempt_cases (A : List Byte) :
    (MagicFree A ∧ attempt A = .stop .noMagic (retained A)) ∨
    ∃ p k, firstMagic A = some (p, k) ∧
      (attempt A = .stop .truncated (A.drop p) ∨
        k.len ≤ (A.drop p).length ∧
          attempt A = .candidate k ((A.drop p).take k.len) ((A.drop p).drop k.len)) := by
  cases hf : firstMagic A with
  | none => exact .inl ⟨hf, attempt_of_magicFree hf⟩
  | some q =>
    obtain hl | hl := Nat.lt_or_ge (A.drop q.1).length q.2.len
    · exact .inr ⟨q.1, q.2, rfl, .inl (attempt_wait hf hl)⟩
    · exact .inr ⟨q.1, q.2, rfl, .inr ⟨hl, attempt_extract hf hl⟩⟩

/-- Where a candidate comes from: the first magic, with its kind's length of bytes from there on (R105). -/
theorem firstMagic_of_attempt (h : attempt A = .candidate k F rest) :
    ∃ p, firstMagic A = some (p, k) ∧ k.len ≤ (A.drop p).length ∧ F = (A.drop p).take k.len ∧
      rest = (A.drop p).drop k.len := by
  obtain ⟨-, hstop⟩ | ⟨p, k', hf, hstop | ⟨hl, hcand⟩⟩ := attempt_cases A
  · rw [hstop] at h; cases h
  · rw [hstop] at h; cases h
  · rw [hcand] at h
    cases h
    exact ⟨p, hf, hl, rfl, rfl⟩

/-- A candidate leaves an accumulator shorter by its kind's length at least (R110). -/
theorem length_add_len_le_of_attempt (h : attempt A = .candidate k F rest) : rest.length + k.len ≤ A.length := by
  obtain ⟨p, -, hl, -, rfl⟩ := firstMagic_of_attempt h
  simp only [List.length_drop] at hl ⊢
  omega

end attempt

/-- Settles O15: the three ends of an attempt. -/
theorem attemptFollowsItsSteps : Obligations.AttemptFollowsItsSteps := by
  refine fun A => ⟨fun hnone => ?_, fun p k hf => ⟨fun hl => attempt_wait hf ?_, fun hl => attempt_extract hf ?_⟩⟩
  · rw [attempt_of_magicFree hnone, retained_eq]
  · rwa [List.length_drop]
  · rwa [List.length_drop]

/-- Settles O16: the candidate is cut at the first magic, and the bytes before it are the discarded ones. -/
theorem candidateIsMagicLed : Obligations.CandidateIsMagicLed := by
  intro A k F rest h
  obtain ⟨p, hf, hl, rfl, rfl⟩ := firstMagic_of_attempt h
  obtain ⟨hat, hleast⟩ := magicAt_of_firstMagic hf
  have hled : magicAt (A.drop p) 0 = some k := (magicAt_drop A p 0).trans hat
  have hlen : ((A.drop p).take k.len).length = k.len := List.length_take_of_le hl
  refine ⟨hlen, ?_, A.take p, by simp, fun j hj => hleast j (Nat.lt_of_lt_of_le hj (List.length_take_le p A))⟩
  have hshort : 0 + 1 < ((A.drop p).take k.len).length := by
    rw [hlen]
    exact Nat.lt_of_lt_of_le (by decide) (five_le_kind_len k)
  rw [← magicAt_append hshort ((A.drop p).drop k.len), List.take_append_drop]
  exact hled

/-! ## An attempt and the bytes that come after it (R115) -/

/-- The first magic stays the first, whatever is appended (R101). -/
theorem firstMagic_append {A : List Byte} {p : Nat} {k : Kind} (h : firstMagic A = some (p, k)) (B : List Byte) :
    firstMagic (A ++ B) = some (p, k) := by
  obtain ⟨hat, hleast⟩ := magicAt_of_firstMagic h
  have hlen := lt_length_of_magicAt hat
  exact firstMagic_eq_some_iff.2 ⟨(magicAt_append hlen B).trans hat,
    fun j hj => (magicAt_append (by omega) B).trans (hleast j hj)⟩

/-- What NO_MAGIC retains is a matter of the last byte alone (R102). -/
theorem retained_cons_cons (b b1 : Byte) (rest : List Byte) : retained (b :: b1 :: rest) = retained (b1 :: rest) := by
  simp only [retained_eq, List.getLast?_cons_cons]

/-- A byte that begins no magic is garbage, where it is not the last (R102, R103). -/
theorem attempt_cons {b b1 : Byte} {rest : List Byte} (h : magicAt [b, b1] 0 = none) :
    attempt (b :: b1 :: rest) = attempt (b1 :: rest) := by
  have hhead : magicAt (b :: b1 :: rest) 0 = none := by rwa [magicAt_zero_cons, ← magicAt_zero_cons b b1 []]
  rw [attempt, firstMagic_cons hhead, attempt]
  cases firstMagic (b1 :: rest) with
  | none => exact congrArg (Attempt.stop .noMagic) (retained_cons_cons b b1 rest)
  | some q => rfl

/-- Of bytes with no magic, only what NO_MAGIC retains has a part in a later attempt (R102). -/
theorem attempt_append_of_magicFree {A : List Byte} (h : MagicFree A) (B : List Byte) :
    attempt (A ++ B) = attempt (retained A ++ B) := by
  induction A with
  | nil => rfl
  | cons b A ih =>
    cases A with
    | cons b1 rest =>
      obtain ⟨hhead, htail⟩ := (magicFree_cons_cons b b1 rest).1 h
      rw [retained_cons_cons, ← ih htail]
      exact attempt_cons hhead
    | nil =>
      have hret : retained [b] = if b = 0xAA then [0xAA] else [] := retained_concat [] b
      rw [hret]
      split
      case isTrue hb => rw [hb]
      case isFalse hb =>
        cases B with
        | nil => exact (attempt_of_magicFree h).trans (congrArg _ (hret.trans (if_neg hb)))
        | cons b1 B => exact attempt_cons (by rw [magicAt_zero_cons, if_neg hb])

/-- What an attempt discards where it stops has no part in a later attempt (R102 to R104). -/
theorem attempt_append_of_stop {A A' : List Byte} {why : Condition} (h : attempt A = .stop why A') (B : List Byte) :
    attempt (A ++ B) = attempt (A' ++ B) := by
  obtain ⟨hfree, hstop⟩ | ⟨p, k, hf, hstop | ⟨-, hcand⟩⟩ := attempt_cases A
  · rw [hstop] at h
    cases h
    exact attempt_append_of_magicFree hfree B
  · rw [hstop] at h
    cases h
    have hat := (magicAt_of_firstMagic hf).1
    have hled : magicAt (A.drop p) 0 = some k := (magicAt_drop A p 0).trans hat
    have hp := lt_length_of_magicAt hat
    rw [attempt, firstMagic_append hf B, attempt, firstMagic_append (firstMagic_of_magicAt hled) B]
    simp only [List.drop_append_of_le_length (Nat.le_of_succ_le (Nat.le_of_succ_le hp)), List.drop_zero]
  · rw [hcand] at h; cases h

/-- A candidate is removed the same whatever comes after it (R72, R105). -/
theorem attempt_append_of_candidate {A F rest : List Byte} {k : Kind} (h : attempt A = .candidate k F rest)
    (B : List Byte) : attempt (A ++ B) = .candidate k F (rest ++ B) := by
  obtain ⟨p, hf, hl, rfl, rfl⟩ := firstMagic_of_attempt h
  have hp := lt_length_of_magicAt (magicAt_of_firstMagic hf).1
  have hdrop : (A ++ B).drop p = A.drop p ++ B := List.drop_append_of_le_length (by omega)
  rw [attempt_extract (firstMagic_append hf B) (by rw [hdrop, List.length_append]; omega), hdrop,
    List.take_append_of_le_length hl, List.drop_append_of_le_length hl]

/-! ## How many attempts a drain makes (R110) -/

/-- A candidate's meaning leaves the accumulator alone (R107, R156). -/
theorem runCandidate_acc {k : Kind} {F : List Byte} {s t : State} (h : runCandidate k F s = .next t) :
    t.acc = s.acc := by
  obtain ⟨G, v, hcheck⟩ := runCandidate_is_check k F s
  obtain ⟨-, rfl | ⟨r, c, rfl⟩⟩ := checkCandidate_cases (hcheck ▸ h)
  · exact publish_acc k v s
  · rfl

/-- A drain that goes on after a candidate: the candidate's meaning with no delivery hanging, and the rest. -/
theorem drainFuel_succ_of_candidate {s t : State} {k : Kind} {F rest : List Byte}
    (ha : attempt s.acc = .candidate k F rest) (hr : runCandidate k F { s with acc := rest } = .next t)
    (hf : t.inFlight = none) (n : Nat) : drainFuel runCandidate (n + 1) s = drainFuel runCandidate n t := by
  simp [drainFuel, ha, hr, hf]

/-- One attempt more changes nothing once there are more than floor(|ACC| / 5) (R110). -/
theorem drainFuel_succ {n : Nat} {s : State} (h : s.acc.length / 5 < n) :
    drainFuel runCandidate (n + 1) s = drainFuel runCandidate n s := by
  induction n generalizing s with
  | zero => exact absurd h (Nat.not_lt_zero _)
  | succ n ih =>
    cases ha : attempt s.acc with
    | stop why A => simp only [drainFuel, ha]
    | candidate k F rest =>
      cases hr : runCandidate k F { s with acc := rest } with
      | fault r => simp only [drainFuel, ha, hr]
      | refused r => simp only [drainFuel, ha, hr]
      | next t =>
        by_cases hf : t.inFlight = none
        · have hshorter := length_add_len_le_of_attempt ha
          have hfive := five_le_kind_len k
          have hacc : t.acc.length = rest.length := congrArg List.length (runCandidate_acc hr)
          rw [drainFuel_succ_of_candidate ha hr hf, drainFuel_succ_of_candidate ha hr hf, ih (by omega)]
        · simp [drainFuel, ha, hr, Option.isSome_iff_ne_none, hf]

/-- Every fuel above floor(|ACC| / 5) gives the drain's result (R110). -/
theorem drainFuel_eq_drain {n : Nat} {s : State} (h : s.acc.length / 5 < n) :
    drainFuel runCandidate n s = drain runCandidate s := by
  have hleast : ∀ m, s.acc.length / 5 + 1 ≤ m →
      drainFuel runCandidate m s = drainFuel runCandidate (s.acc.length / 5 + 1) s := fun m hm => by
    induction m, hm using Nat.le_induction with
    | base => rfl
    | succ m hm ih => rw [drainFuel_succ hm, ih]
  rw [drain, hleast n h, hleast (s.acc.length + 1) (by omega)]

/-- Settles O17: every attempt but the last removes at least five bytes. -/
theorem drainIsBounded : Obligations.DrainIsBounded := by
  intro s n h
  rw [execCandidate_eq]
  exact drainFuel_eq_drain h

end Sys2Proof.Machine
end

section
/-! PROOFS of 41_frame_decoder.md, the candidate and the byte: a frame's check as a publish or a drop, the transitions
of DEC byte by byte, and bytes taken into a candidate unexamined. -/

namespace Sys2Proof.Machine

/-! ## The meaning of an inbound frame (R106 to R108) -/

section inbound
variable {i : Instr} {k : Kind} {s : State}

/-- An inbound frame is the check of its own bytes, for its own value (R106). -/
theorem exec_eq_checkCandidate (hk : i.kind = some k) (s : State) :
    ∃ v, i.value = some v ∧ exec i s = checkCandidate k (encode i) v s := by
  cases i <;> cases hk <;> exact ⟨_, rfl, rfl⟩

/-- The sender's checksum of an inbound frame is that of the check (R67). -/
theorem senderCk_eq_ckOf (hk : i.kind = some k) : i.senderCk = ckOf (encode i) := by
  cases i <;> cases hk <;> rfl

/-- A frame whose checksum matches is published (R108). -/
theorem exec_of_wellFormed {v : Value} (hk : i.kind = some k) (hv : i.value = some v) (hw : i.WellFormed)
    (hf : s.inFlight = none) : exec i s = .next (publish k v s) := by
  obtain ⟨v', hv', hexec⟩ := exec_eq_checkCandidate hk s
  rw [hexec, checkCandidate_eq k (encode i) v' s hf, if_pos ((wellFormed_iff_of_kind i k hk).1 hw),
    Option.some_inj.1 (hv.symm.trans hv')]

/-- A frame whose checksum does not match is dropped (R107). -/
theorem exec_of_not_wellFormed (hk : i.kind = some k) (hw : ¬i.WellFormed) (hf : s.inFlight = none) :
    exec i s = .next (crcDrop k i.ck i.senderCk s) := by
  obtain ⟨v, -, hexec⟩ := exec_eq_checkCandidate hk s
  rw [hexec, checkCandidate_eq k (encode i) v s hf, if_neg (hw ∘ (wellFormed_iff_of_kind i k hk).2),
    trailerOf_encode, senderCk_eq_ckOf hk]

/-- An inbound frame answers only where no delivery hangs (R157). -/
theorem inFlight_of_exec {t : State} (hk : i.kind = some k) (h : exec i s = .next t) : s.inFlight = none := by
  obtain ⟨v, -, hexec⟩ := exec_eq_checkCandidate hk s
  exact (checkCandidate_cases (hexec ▸ h)).1

end inbound

/-- Settles O18: the publish, for each of the three kinds. -/
theorem matchingFrameIsPublished : Obligations.MatchingFrameIsPublished :=
  fun _ hf => ⟨fun _ _ _ _ hw => exec_of_wellFormed rfl rfl hw hf, fun _ _ hw => exec_of_wellFormed rfl rfl hw hf,
    fun _ _ hw => exec_of_wellFormed rfl rfl hw hf⟩

/-- Settles O19: the drop, whose fields are those of CRC_DROP. -/
theorem mismatchedFrameIsDropped : Obligations.MismatchedFrameIsDropped :=
  fun _ _ _ hk hw hf => exec_of_not_wellFormed hk hw hf

/-- Settles O21: a well-formed frame is published and any other is dropped; both leave the rest alone. -/
theorem inboundLeavesTheRest : Obligations.InboundLeavesTheRest := by
  intro i k s t hk h
  have hf := inFlight_of_exec hk h
  by_cases hw : i.WellFormed
  · obtain ⟨v, hv, -⟩ := exec_eq_checkCandidate hk s
    rw [exec_of_wellFormed hk hv hw hf] at h
    cases h
    obtain ⟨es, htrace, hes⟩ := publish_trace k v s
    exact ⟨by simp, fun _ => publish_crcErrCnt k v s, fun hno => absurd hw hno, .frameOk k v :: es, htrace,
      fun hno => absurd hw hno, fun _ => ⟨v, es, hv, rfl, hes⟩⟩
  · rw [exec_of_not_wellFormed hk hw hf] at h
    cases h
    exact ⟨⟨rfl, rfl, rfl, rfl, rfl, rfl⟩, fun hyes => absurd hyes hw, fun _ => ⟨rfl, hf, rfl⟩, _, rfl, fun _ => rfl,
      fun hyes => absurd hyes hw⟩

/-! ## The transitions of DEC (R113) -/

/-- DEC of what NO_MAGIC retains of a byte: GOT_AA or IDLE (R112). -/
theorem decOf_ite_AA (b : Byte) :
    decOf (if b = 0xAA then [0xAA] else []) = if b = 0xAA then .gotAA else .idle := by
  split <;> rfl

section push
variable {s : State} {k : Kind} {b : Byte}

/-- A byte that forms no magic with what is held is garbage, but for a final AA (R102). -/
theorem pushByte_magicFree (run : Executor) (h : s.Accepts) (hfree : MagicFree (s.acc ++ [b])) :
    pushByte run b s = .next { s with acc := if b = 0xAA then [0xAA] else [] } := by
  rw [pushByte_accepts run b s h, ← retained_concat s.acc b]
  exact drain_stop run { s with acc := s.acc ++ [b] } (attempt_of_magicFree hfree)

/-- The two bytes of a magic are one (R69). -/
theorem magicAt_pair (hb : kindOf b = some k) (rest : List Byte) : magicAt (0xAA :: b :: rest) 0 = some k := by
  rw [magicAt_zero_cons, if_pos rfl, hb]

/-- From GOT_AA the second byte of a magic begins a candidate (R113). -/
theorem pushByte_second (run : Executor) (h : s.Accepts) (hacc : s.acc = [0xAA]) (hb : kindOf b = some k) :
    pushByte run b s = .next { s with acc := [0xAA, b] } := by
  rw [pushByte_accepts run b s h, hacc]
  exact drain_stop run { s with acc := [0xAA, b] }
    (attempt_short (magicAt_pair hb []) (Nat.lt_of_lt_of_le (by decide : 2 < 5) (five_le_kind_len k)))

/-- Row 1 of R113: from IDLE a byte is held if it is AA. -/
theorem pushByte_idle (run : Executor) (h : s.Accepts) (hacc : s.acc = []) :
    pushByte run b s = .next { s with acc := if b = 0xAA then [0xAA] else [] } :=
  pushByte_magicFree run h (by rw [hacc]; rfl)

/-- Rows 2 to 4 of R113: from GOT_AA a byte begins a candidate, is held if it is AA, or is garbage. -/
theorem pushByte_gotAA (run : Executor) (h : s.Accepts) (hacc : s.acc = [0xAA]) :
    pushByte run b s = .next { s with
      acc := if b = 0xCC ∨ b = 0xDD ∨ b = 0xEE then [0xAA, b] else if b = 0xAA then [0xAA] else [] } := by
  cases hb : kindOf b with
  | some k =>
    have hmagic : b = 0xCC ∨ b = 0xDD ∨ b = 0xEE := by
      have hb1 := eq_of_kindOf b k hb
      cases k with
      | cs => exact .inl hb1
      | ga => exact .inr (.inl hb1)
      | ra => exact .inr (.inr hb1)
    rw [if_pos hmagic]
    exact pushByte_second run h hacc hb
  | none =>
    have hno : ¬(b = 0xCC ∨ b = 0xDD ∨ b = 0xEE) := by
      rintro (rfl | rfl | rfl) <;> cases hb
    have hfree : MagicFree (s.acc ++ [b]) := by
      rw [hacc]
      exact (magicFree_cons_cons 0xAA b []).2 ⟨by rw [magicAt_zero_cons, if_pos rfl, hb], rfl⟩
    rw [if_neg hno]
    exact pushByte_magicFree run h hfree

end push

/-- DEC after a byte from GOT_AA (R113). -/
theorem decOf_gotAA_next (b : Byte) :
    decOf (if b = 0xCC ∨ b = 0xDD ∨ b = 0xEE then [0xAA, b] else if b = 0xAA then [0xAA] else []) =
      if b = 0xCC then .collect .cs 2 else if b = 0xDD then .collect .ga 2 else if b = 0xEE then .collect .ra 2
      else if b = 0xAA then .gotAA else .idle := by
  by_cases hcs : b = 0xCC
  · subst hcs; rfl
  by_cases hga : b = 0xDD
  · subst hga; rfl
  by_cases hra : b = 0xEE
  · subst hra; rfl
  simp only [hcs, hga, hra, or_self, if_false, decOf_ite_AA]

/-- The byte that completes a candidate publishes its value or drops it, with nothing left (R113, last row). -/
theorem pushByte_last {s : State} {k : Kind} {b : Byte} (h : s.Accepts) (hm : magicAt s.acc 0 = some k)
    (hl : s.acc.length + 1 = k.len) :
    ∃ v, (frameInstr k (s.acc ++ [b])).value = some v ∧
      pushByte runCandidate b s = .next (if ckOf (s.acc ++ [b]) = trailerOf (s.acc ++ [b])
        then publish k v { s with acc := [] }
        else crcDrop k (trailerOf (s.acc ++ [b])) (ckOf (s.acc ++ [b])) { s with acc := [] }) := by
  have hlen : (s.acc ++ [b]).length = k.len := by rw [List.length_append, List.length_singleton, hl]
  obtain ⟨v, hv, hrun⟩ := runCandidate_eq_check k (s.acc ++ [b]) { s with acc := [] } hlen (magicAt_zero_append hm [b])
  exact ⟨v, hv, by rw [pushByte_complete b s h hm hl, hrun, checkCandidate_eq k _ v { s with acc := [] } h.2]⟩

/-- Settles O53: a row of the table for each form of ACC. -/
theorem byteTransitionsFollowTheTable : Obligations.ByteTransitionsFollowTheTable := by
  intro b s h
  simp only [runOp_pushByte]
  refine ⟨fun hacc => ⟨by rw [hacc]; rfl, _, pushByte_idle runCandidate h hacc, rfl, decOf_ite_AA b⟩,
    fun hacc => ⟨by rw [hacc]; rfl, _, pushByte_gotAA runCandidate h hacc, rfl, decOf_gotAA_next b⟩,
    fun k n hm hn hl => ?_, fun k n hm hn hl => ?_⟩ <;> subst hn
  · have hm' := magicAt_zero_append hm [b]
    refine ⟨decOf_of_magicAt hm, pushByte_collect runCandidate b s h hm hl, ?_⟩
    rw [decOf_of_magicAt hm', List.length_append, List.length_singleton]
  · obtain ⟨v, hv, hpush⟩ := pushByte_last (b := b) h hm hl
    refine ⟨decOf_of_magicAt hm, _, hpush, ?_⟩
    split
    case isTrue hck =>
      rw [publish_acc]
      exact ⟨rfl, rfl, fun hne => absurd hck hne, fun _ => ⟨v, hv, rfl⟩⟩
    case isFalse hck => exact ⟨rfl, rfl, fun _ => rfl, fun heq => absurd heq hck⟩

/-! ## One candidate a byte (R114, R118) -/

/-- The check of a candidate ends exactly one (R107, R108). -/
theorem checkCandidate_endsCandidate {k : Kind} {F : List Byte} {v : Value} {s t : State}
    (h : checkCandidate k F v s = .next t) : ∃ es, t.trace = s.trace ++ es ∧ es.countP Event.endsCandidate = 1 := by
  obtain ⟨-, rfl | ⟨r, c, rfl⟩⟩ := checkCandidate_cases h
  · obtain ⟨es, htrace, hes⟩ := publish_trace k v s
    refine ⟨_, htrace, ?_⟩
    have hnone : es.countP Event.endsCandidate = 0 := by
      rw [List.countP_eq_zero]
      intro e he
      obtain ⟨j, id, rfl⟩ | ⟨j, id, rfl⟩ := hes e he <;> simp [Event.endsCandidate]
    rw [List.countP_cons, hnone]
    rfl
  · exact ⟨[.crcDrop k r c], rfl, rfl⟩

/-- Settles O54: the invariant bounds what is held, and a byte received runs at most one candidate. -/
theorem oneCandidatePerByteAndBoundedAcc : Obligations.OneCandidatePerByteAndBoundedAcc := by
  intro b s t hs h
  obtain ⟨hA, -, -, -⟩ := (inv_iff s).1 hs
  have hlen : s.acc.length < 74 := length_lt_accCap_of_accForm hA
  refine ⟨Nat.le_of_lt_succ hlen, by rw [List.length_append]; exact hlen, rfl, ?_⟩
  obtain ⟨hf, ⟨-, hdrain⟩ | ⟨-, rfl⟩⟩ := pushByte_cases (runOp_pushByte b s ▸ h)
  · obtain ⟨A, -, rfl⟩ | ⟨k, F, v, hcheck⟩ := drain_append_cases hf hA hdrain
    · exact ⟨[], (List.append_nil _).symm, Nat.zero_le 1⟩
    · obtain ⟨es, htrace, hone⟩ := checkCandidate_endsCandidate hcheck
      exact ⟨es, htrace, hone.le⟩
  · exact ⟨[.refused .pushByte], rfl, Nat.zero_le 1⟩

/-! ## Inside a candidate (R121, R122) -/

/-- Bytes that do not complete the candidate being collected are appended to it unexamined (R104, R122). -/
theorem pushBytes_collect (run : Executor) {k : Kind} {c : List Byte} {s : State} (h : s.Accepts)
    (hm : magicAt s.acc 0 = some k) (hl : s.acc.length + c.length < k.len) :
    pushBytes run c s = .next { s with acc := s.acc ++ c } := by
  induction c generalizing s with
  | nil => rw [List.append_nil]; rfl
  | cons b c ih =>
    rw [List.length_cons] at hl
    have hbyte := pushByte_collect run b s h hm (by omega)
    have hlen : (s.acc ++ [b]).length + c.length < k.len := by rw [List.length_append, List.length_singleton]; omega
    rw [pushBytes_cons run b c hbyte h.2, ih (s := { s with acc := s.acc ++ [b] }) h (magicAt_zero_append hm [b]) hlen,
      List.append_assoc, List.singleton_append]

/-- Settles O25: an outbound packet is bytes like any others. -/
theorem noSearchInsideACandidate : Obligations.NoSearchInsideACandidate :=
  fun s _ h hm => ⟨fun _ hl => pushBytes_collect execCandidate h hm hl,
    fun _ hk hl => (exec_outbound hk s).trans (pushBytes_collect runCandidate h hm hl)⟩

/-- From IDLE or GOT_AA a magic-led sequence of its kind's length is a candidate and runs as one (R113). -/
theorem pushBytes_candidate_of_between {k : Kind} {F : List Byte} {s : State} (h : s.Accepts) (hb : s.Between)
    (hm : magicAt F 0 = some k) (hlen : F.length = k.len) :
    pushBytes runCandidate F s = runCandidate k F { s with acc := [] } := by
  rw [← pushBytes_candidate (s := { s with acc := [] }) h rfl hm hlen]
  obtain ⟨rest, rfl⟩ := head_of_magicAt hm
  exact pushBytes_AA_of_between runCandidate _ h hb

/-- Settles O26: AA is held, the second byte locks the decoder, and the bytes after it are collected. -/
theorem magicPatternLocks : Obligations.MagicPatternLocks := by
  intro s k b c h hbetween hb
  have hm := magicAt_pair hb c
  refine ⟨fun hl => ?_, fun hl => ?_⟩
  · rw [pushBytes_cons execCandidate _ _ (pushByte_AA_of_between execCandidate h hbetween) h.2,
      pushBytes_cons execCandidate _ _ (pushByte_second execCandidate (s := { s with acc := [0xAA] }) h rfl hb) h.2]
    exact pushBytes_collect execCandidate (s := { s with acc := [0xAA, b] }) h (magicAt_pair hb [])
      (by rwa [Nat.add_comm] at hl)
  · rw [execCandidate_eq, pushBytes_candidate_of_between h hbetween hm hl, ← execCandidate_eq]
    rfl

end Sys2Proof.Machine
end

section
/-! PROOFS of 41_frame_decoder.md, the stream in chunks: a drain made before the last bytes come, bytes in parts, and
the chunk steps of any split. -/

namespace Sys2Proof.Machine

/-! ## A drain made before the last bytes come (R115) -/

/-- A candidate's meaning does not read the accumulator: it can be set before or after (R107, R156). -/
theorem runCandidate_withAcc {k : Kind} {F : List Byte} {s t : State} (A : List Byte)
    (h : runCandidate k F s = .next t) : runCandidate k F { s with acc := A } = .next { t with acc := A } := by
  obtain ⟨G, v, hcheck⟩ : ∃ G v, ∀ u, runCandidate k F u = checkCandidate k G v u := by
    cases k <;> exact ⟨_, _, fun _ => rfl⟩
  rw [hcheck] at h ⊢
  have hf := (checkCandidate_cases h).1
  rw [checkCandidate_eq k G v s hf] at h
  cases h
  rw [checkCandidate_eq k G v { s with acc := A } hf]
  split
  · rw [publish_withAcc]
  · rfl

/-- A drain reads of the accumulator what its first attempt finds there. -/
theorem drain_congr {A B : List Byte} (h : attempt A = attempt B) (s : State) :
    drain runCandidate { s with acc := A } = drain runCandidate { s with acc := B } := by
  have hA : A.length / 5 < A.length + B.length + 1 := by omega
  have hB : B.length / 5 < A.length + B.length + 1 := by omega
  rw [← drainFuel_eq_drain (s := { s with acc := A }) hA, ← drainFuel_eq_drain (s := { s with acc := B }) hB]
  simp only [drainFuel, h]

/-- A drain of a candidate whose deliveries do not hang goes on with the rest (R110). -/
theorem drain_of_candidate {s t : State} {k : Kind} {F rest : List Byte} (ha : attempt s.acc = .candidate k F rest)
    (hr : runCandidate k F { s with acc := rest } = .next t) (hf : t.inFlight = none) :
    drain runCandidate s = drain runCandidate t := by
  have hshorter := length_add_len_le_of_attempt ha
  have hfive := five_le_kind_len k
  have hacc : t.acc.length = rest.length := congrArg List.length (runCandidate_acc hr)
  rw [drain, drainFuel_succ_of_candidate ha hr hf, drainFuel_eq_drain (by omega)]

/-- Where a drain hangs no delivery, a drain with more bytes is a drain of them after it (R115). -/
theorem drain_append_of_drainFuel {n : Nat} {s u : State} (B : List Byte) (hn : s.acc.length / 5 < n)
    (h : drainFuel runCandidate n s = .next u) (hu : u.inFlight = none) :
    drain runCandidate { s with acc := s.acc ++ B } = drain runCandidate { u with acc := u.acc ++ B } := by
  induction n generalizing s with
  | zero => exact absurd hn (Nat.not_lt_zero _)
  | succ n ih =>
    cases ha : attempt s.acc with
    | stop why A =>
      simp only [drainFuel, ha] at h
      cases h
      exact drain_congr (attempt_append_of_stop ha B) s
    | candidate k F rest =>
      cases hr : runCandidate k F { s with acc := rest } with
      | fault r => simp [drainFuel, ha, hr] at h
      | refused r => simp [drainFuel, ha, hr] at h
      | next t =>
        have hf : t.inFlight = none := by
          by_contra hhung
          simp only [drainFuel, ha, hr, Option.isSome_iff_ne_none.2 hhung, if_true] at h
          cases h
          exact hhung hu
        have hshorter := length_add_len_le_of_attempt ha
        have hfive := five_le_kind_len k
        have hacc : t.acc = rest := runCandidate_acc hr
        have hrun := runCandidate_withAcc (rest ++ B) hr
        have hstep := drain_of_candidate (s := { s with acc := s.acc ++ B }) (attempt_append_of_candidate ha B) hrun hf
        rw [drainFuel_succ_of_candidate ha hr hf] at h
        rw [hstep, ← hacc]
        exact ih (by rw [hacc]; omega) h

/-! ## Bytes in parts -/

/-- A chunk that ends with no delivery hanging is its first byte, which hangs none, and then the others (R92). -/
theorem pushBytes_cons_next {run : Executor} {b : Byte} {bs : List Byte} {s t : State}
    (h : pushBytes run (b :: bs) s = .next t) (ht : t.inFlight = none) :
    ∃ u, pushByte run b s = .next u ∧ u.inFlight = none ∧ pushBytes run bs u = .next t := by
  cases hb : pushByte run b s with
  | fault r => simp [pushBytes, hb] at h
  | refused r => simp [pushBytes, hb] at h
  | next u =>
    have hu : u.inFlight = none := by
      by_contra hhung
      simp only [pushBytes, hb, Option.isSome_iff_ne_none.2 hhung, if_true] at h
      cases h
      exact hhung (holdBack_inFlight bs u ▸ ht)
    exact ⟨u, rfl, hu, pushBytes_cons run b bs hb hu ▸ h⟩

/-- Bytes that end with no delivery hanging are a first part, which hangs none, and then the other (R92). -/
theorem pushBytes_append_next {run : Executor} {a b : List Byte} {s t : State}
    (hs : s.inFlight = none) (h : pushBytes run (a ++ b) s = .next t) (ht : t.inFlight = none) :
    ∃ u, pushBytes run a s = .next u ∧ u.inFlight = none ∧ pushBytes run b u = .next t := by
  induction a generalizing s with
  | nil => exact ⟨s, rfl, hs, h⟩
  | cons x a ih =>
    obtain ⟨v, hx, hv, hrest⟩ := pushBytes_cons_next h ht
    obtain ⟨u, ha, hu, hb⟩ := ih hv hrest
    exact ⟨u, (pushBytes_cons run x a hx hv).trans ha, hu, hb⟩

/-- A byte received leaves the accumulator in a form of R112 (R113). -/
theorem pushByte_accForm {b : Byte} {s t : State} (h : pushByte runCandidate b s = .next t)
    (hA : accForm s.acc = true) : accForm t.acc = true := by
  obtain ⟨hf, ⟨-, hdrain⟩ | ⟨-, rfl⟩⟩ := pushByte_cases h
  · obtain ⟨A, hA', rfl⟩ | ⟨k, F, v, hcheck⟩ := drain_append_cases hf hA hdrain
    · exact hA'
    · obtain ⟨-, rfl | ⟨r, c, rfl⟩⟩ := checkCandidate_cases hcheck
      · rw [publish_acc]; rfl
      · rfl
  · exact hA

/-- Bytes received leave the accumulator in a form of R112 (R113). -/
theorem pushBytes_accForm {bs : List Byte} {s t : State} (h : pushBytes runCandidate bs s = .next t)
    (hA : accForm s.acc = true) : accForm t.acc = true :=
  pushBytes_rel (fun s t => accForm s.acc = true → accForm t.acc = true) (fun _ => id) (fun hst htu => htu ∘ hst)
    pushByte_accForm (fun bs s => by rw [holdBack_acc]; exact id) h hA

/-- Bytes received leave the unit accepting bytes, unless a delivery hangs (R91). -/
theorem accepts_of_pushBytes {bs : List Byte} {s t : State} (h : pushBytes runCandidate bs s = .next t)
    (hs : s.Accepts) (ht : t.inFlight = none) : t.Accepts := ⟨(pushBytes_receives h).run.trans hs.1, ht⟩

/-! ## Chunks (R115) -/

/-- An attempt on an accumulator in a form of R112 finds nothing to do (R112). -/
theorem attempt_of_accForm {A : List Byte} (h : accForm A = true) : ∃ why, attempt A = .stop why A := by
  obtain rfl | rfl | ⟨k, hm, hl⟩ := (accForm_iff A).1 h
  · exact ⟨_, attempt_nil⟩
  · exact ⟨_, rfl⟩
  · exact ⟨_, attempt_short hm hl⟩

/-- One chunk step gives what the bytes of the chunk give one by one (R115). -/
theorem chunkStep_of_pushBytes {c : List Byte} {s t : State} (hs : s.Accepts) (hA : accForm s.acc = true)
    (h : pushBytes runCandidate c s = .next t) (ht : t.inFlight = none) : chunkStep runCandidate c s = .next t := by
  induction c generalizing s with
  | nil =>
    obtain ⟨why, hstop⟩ := attempt_of_accForm hA
    rw [chunkStep, List.append_nil, drain_stop runCandidate s hstop]
    exact h
  | cons b bs ih =>
    obtain ⟨u, hb, hu, hrest⟩ := pushBytes_cons_next h ht
    have hdrain : drainFuel runCandidate ((s.acc ++ [b]).length + 1) { s with acc := s.acc ++ [b] } = .next u := by
      rw [← hb, pushByte_accepts runCandidate b s hs]
      rfl
    have hcut : chunkStep runCandidate (b :: bs) s = chunkStep runCandidate bs u := by
      rw [chunkStep, List.append_cons]
      exact drain_append_of_drainFuel (s := { s with acc := s.acc ++ [b] }) bs (by dsimp only; omega) hdrain hu
    rw [hcut]
    exact ih ⟨(pushByte_receives hb).run.trans hs.1, hu⟩ (pushByte_accForm hb hA) hrest

/-- The chunk steps of any split give what the bytes give one by one (R115). -/
theorem chunkSteps_of_pushBytes {chunks : List (List Byte)} {s t : State} (hs : s.Accepts)
    (hA : accForm s.acc = true) (h : pushBytes runCandidate chunks.flatten s = .next t) (ht : t.inFlight = none) :
    chunkSteps runCandidate chunks s = .next t := by
  induction chunks generalizing s with
  | nil => exact h
  | cons c chunks ih =>
    obtain ⟨u, hc, hu, hrest⟩ := pushBytes_append_next hs.2 h ht
    simp only [chunkSteps, chunkStep_of_pushBytes hs hA hc hu]
    exact ih (accepts_of_pushBytes hc hs hu) (pushBytes_accForm hc hA) hrest

/-- Settles O55: a chunk runs byte by byte, and a drain may be made before the last bytes come. -/
theorem chunkingInvariance : Obligations.ChunkingInvariance := by
  refine ⟨fun _ => rfl, fun b bs s t h ht => pushBytes_cons execCandidate b bs h ht, fun _ _ => rfl,
    fun chunks s t hs hA h ht => ?_⟩
  rw [execCandidate_eq] at h ⊢
  exact chunkSteps_of_pushBytes hs hA h ht

end Sys2Proof.Machine
end

section
/-! PROOFS of 41_frame_decoder.md, frames in a stream: a frame found among garbage, the checksum gate on a single-bit
error, and frames in stream order. -/

namespace Sys2Proof.Machine

/-! ## A well-formed frame in a stream (R108, R113) -/

/-- A well-formed frame received from IDLE or GOT_AA is published, with nothing left of it (R108, R113). -/
theorem pushBytes_of_wellFormed {i : Instr} {k : Kind} {v : Value} {s : State} (hk : i.kind = some k)
    (hv : i.value = some v) (hw : i.WellFormed) (h : s.Accepts) (hb : s.Between) :
    pushBytes runCandidate (encode i) s = .next (publish k v { s with acc := [] }) := by
  rw [pushBytes_encode_of_between hk h hb]
  exact exec_of_wellFormed hk hv hw h.2

/-- Settles O56: garbage, the frame, garbage, each received where the part before it ends. -/
theorem resyncFindsTheFrame : Obligations.ResyncFindsTheFrame := by
  intro g1 g2 i k v s h hnil hg1 hg2 hk hv hw hf
  have hs : { s with acc := [] } = s := by rw [← hnil]
  have hbetween : ({ s with acc := retained g1 } : State).Between := by
    rw [State.Between, retained_eq]
    split
    · exact .inr rfl
    · exact .inl rfl
  have hfirst : pushBytes runCandidate g1 s = .next { s with acc := retained g1 } := by
    have hpush := pushBytes_magicFree runCandidate (bs := g1) h (by rw [hnil]; rfl) (by rwa [hnil])
    rwa [hnil] at hpush
  have hframe : pushBytes runCandidate (encode i) { s with acc := retained g1 } = .next (publish k v s) := by
    rw [pushBytes_of_wellFormed (s := { s with acc := retained g1 }) hk hv hw h hbetween, hs]
  have hacc : (publish k v s).acc = [] := (publish_acc k v s).trans hnil
  have hlast := pushBytes_magicFree runCandidate (bs := g2) (s := publish k v s)
    ⟨(publish_run k v s).trans h.1, hf⟩ (by rw [hacc]; rfl) (by rwa [hacc])
  rw [execCandidate_eq, List.append_assoc, pushBytes_append runCandidate g1 _ hfirst h.2,
    pushBytes_append runCandidate _ g2 hframe hf, hlast, hacc, List.nil_append, retained_eq]

/-! ## The checksum gate (R117) -/

/-- Another byte at an offset changes the sum by the difference of the two (R67). -/
theorem byteSum_set {A : List Byte} {j : Nat} (x : Byte) (hj : j < A.length) :
    byteSum (A.set j x) + (byteAt A j).toNat = byteSum A + x.toNat := by
  induction A generalizing j with
  | nil => cases hj
  | cons b A ih =>
    cases j with
    | zero => simp only [List.set_cons_zero, byteSum_cons, byteAt_cons_zero]; omega
    | succ j =>
      have htail := ih (Nat.lt_of_succ_lt_succ hj)
      simp only [List.set_cons_succ, byteSum_cons, byteAt_cons_succ]
      omega

theorem byteAt_set {A : List Byte} {j : Nat} (x : Byte) (i : Nat) (hj : j < A.length) :
    byteAt (A.set j x) i = if j = i then x else byteAt A i := by
  simp only [byteAt, List.getD_eq_getElem?_getD, List.getElem?_set, if_pos hj]
  split <;> rfl

/-- A byte set behind the magic leaves the magic (R66). -/
theorem magicAt_zero_set {A : List Byte} {j : Nat} (x : Byte) (hj : 2 ≤ j) : magicAt (A.set j x) 0 = magicAt A 0 := by
  match A, j, hj with
  | [], _, _ => rfl
  | [_], _ + 2, _ => rfl
  | b0 :: b1 :: rest, j + 2, _ => rw [List.set_cons_succ, List.set_cons_succ, magicAt_zero_cons, magicAt_zero_cons]

/-- A byte set at a covered offset is set among the covered bytes (R66). -/
theorem coveredBytes_set (A : List Byte) (j : Nat) (x : Byte) :
    coveredBytes (A.set (j + 2) x) = (coveredBytes A).set j x := by
  rw [coveredBytes, coveredBytes, List.length_set, List.drop_set, if_neg (by omega), List.take_set, Nat.add_sub_cancel]

/-- Covered byte `j` is the byte at offset `j` + 2 (R66). -/
theorem byteAt_coveredBytes {A : List Byte} {j : Nat} (hj : j < A.length - 4) :
    byteAt (coveredBytes A) j = byteAt A (j + 2) := by
  rw [coveredBytes, byteAt_take _ hj, byteAt_drop, Nat.add_comm]

theorem coveredBytes_length (A : List Byte) : (coveredBytes A).length = A.length - 4 := by
  rw [coveredBytes_eq, List.length_map, List.length_range]

section set
variable {k : Kind} {A : List Byte} {j : Nat} {x : Byte}

/-- Another byte at a covered offset gives another checksum (R67, R68). -/
theorem ckOf_set_covered (hlen : A.length = k.len) (h2 : 2 ≤ j) (hj : j + 2 < k.len) (hx : x ≠ byteAt A j) :
    ckOf (A.set j x) ≠ ckOf A ∧ trailerOf (A.set j x) = trailerOf A := by
  have hset : (A.set j x).length = k.len := by rw [List.length_set, hlen]
  constructor
  · intro heq
    obtain ⟨m, rfl⟩ := Nat.exists_eq_add_of_le' h2
    have hm : m < A.length - 4 := by omega
    have hsum := byteSum_set x (A := coveredBytes A) (j := m) (by rwa [coveredBytes_length])
    rw [← coveredBytes_set, byteAt_coveredBytes hm, ← ckOf_toNat_of_length hset,
      ← ckOf_toNat_of_length hlen, heq] at hsum
    exact hx (BitVec.eq_of_toNat_eq (by omega))
  · apply BitVec.eq_of_toNat_eq
    rw [trailerOf_toNat (by omega), trailerOf_toNat (by omega), hset, hlen, byteAt_set x _ (by omega),
      byteAt_set x _ (by omega), if_neg (by omega), if_neg (by omega)]

/-- Another byte in the trailer gives another trailer and leaves the checksum (R65, R66). -/
theorem trailerOf_set_trailer (hlen : A.length = k.len) (hj : k.len ≤ j + 2) (hjl : j < k.len) (hx : x ≠ byteAt A j) :
    ckOf (A.set j x) = ckOf A ∧ trailerOf (A.set j x) ≠ trailerOf A := by
  have hset : (A.set j x).length = k.len := by rw [List.length_set, hlen]
  have hfive := five_le_kind_len k
  constructor
  · obtain ⟨m, rfl⟩ := Nat.exists_eq_add_of_le' (show 2 ≤ j by omega)
    have hout : (coveredBytes A).length ≤ m := by rw [coveredBytes_length]; omega
    rw [ckOf_eq_ofNat, ckOf_eq_ofNat, coveredBytes_set, List.set_eq_of_length_le hout]
  · intro heq
    have htrailer := congrArg BitVec.toNat heq
    rw [trailerOf_toNat (by omega), trailerOf_toNat (by omega), hset, hlen, byteAt_set x _ (by omega),
      byteAt_set x _ (by omega)] at htrailer
    obtain hlo | hhi : j = k.len - 2 ∨ j = k.len - 1 := by omega
    · rw [if_pos hlo, if_neg (by omega), ← hlo] at htrailer
      exact hx (BitVec.eq_of_toNat_eq (by omega))
    · rw [if_neg (by omega), if_pos hhi, ← hhi] at htrailer
      exact hx (BitVec.eq_of_toNat_eq (by omega))

/-- A candidate that matches matches no more once one byte behind its magic is another (R117). -/
theorem ckOf_ne_trailerOf_set (hlen : A.length = k.len) (hck : ckOf A = trailerOf A) (h2 : 2 ≤ j) (hj : j < k.len)
    (hx : x ≠ byteAt A j) : ckOf (A.set j x) ≠ trailerOf (A.set j x) := by
  rcases Nat.lt_or_ge (j + 2) k.len with hcov | htrail
  · obtain ⟨hne, htr⟩ := ckOf_set_covered hlen h2 hcov hx
    rwa [htr, ← hck]
  · obtain ⟨heq, hne⟩ := trailerOf_set_trailer hlen htrail hj hx
    rw [heq, hck]
    exact hne.symm

end set

/-- A byte with one bit flipped is another byte. -/
theorem xor_two_pow_ne (b : Byte) {bit : Nat} (h : bit < 8) : b ^^^ BitVec.ofNat 8 (2 ^ bit) ≠ b := by
  intro heq
  have hzero : BitVec.ofNat 8 (2 ^ bit) = 0#8 := by
    rw [← BitVec.zero_xor (x := BitVec.ofNat 8 (2 ^ bit)), ← BitVec.xor_self (x := b), BitVec.xor_assoc, heq]
  have hpow : 2 ^ bit < 2 ^ 8 := Nat.pow_lt_pow_right (by decide) h
  have htoNat := congrArg BitVec.toNat hzero
  rw [BitVec.toNat_ofNat, Nat.mod_eq_of_lt hpow] at htoNat
  exact absurd htoNat (Nat.two_pow_pos bit).ne'

/-- A candidate that does not match is dropped, received from IDLE or GOT_AA (R107, R113). -/
theorem pushBytes_of_mismatch {k : Kind} {F : List Byte} {s : State} (h : s.Accepts) (hb : s.Between)
    (hm : magicAt F 0 = some k) (hlen : F.length = k.len) (hck : ckOf F ≠ trailerOf F) :
    pushBytes runCandidate F s = .next (crcDrop k (trailerOf F) (ckOf F) { s with acc := [] }) := by
  obtain ⟨v, -, hrun⟩ := runCandidate_eq_check k F { s with acc := [] } hlen hm
  rw [pushBytes_candidate_of_between h hb hm hlen, hrun, checkCandidate_eq k F v { s with acc := [] } h.2, if_neg hck]

/-- Settles O57: the frame with the flipped bit is still led by its magic and as long, and matches no more. -/
theorem singleBitErrorIsDropped : Obligations.SingleBitErrorIsDropped := by
  intro i i' k k' v' j bit F s h hb hk hw h2 hj hbit hF hk' hv' hw'
  have hlen := encode_length_of_kind i k hk
  have hne : ckOf F ≠ trailerOf F :=
    hF ▸ ckOf_ne_trailerOf_set hlen ((wellFormed_iff_of_kind i k hk).1 hw) h2 hj (xor_two_pow_ne _ hbit)
  have hm : magicAt F 0 = some k := by rw [hF, magicAt_zero_set _ h2, magicAt_encode i k hk]
  have hlenF : F.length = k.len := by rw [hF, List.length_set, hlen]
  refine ⟨hne, ?_⟩
  rw [execCandidate_eq, pushBytes_append runCandidate F _ (pushBytes_of_mismatch h hb hm hlenF hne) h.2]
  exact pushBytes_of_wellFormed hk' hv' hw' h (.inl rfl)

/-! ## Frames in stream order (R119) -/

/-- A delivery that hangs stays on the port, whatever deliveries come after it (R157). -/
theorem inFlight_of_deliverFrom {k : Kind} {v : Value} {L : List SubId} {j : Nat} {s : State}
    (h : (deliverFrom k v j L s).inFlight = none) : s.inFlight = none := by
  induction L generalizing j s with
  | nil => exact h
  | cons id L ih =>
    unfold deliverFrom at h
    split at h
    · exact ih (s := offerDelivery k j id v s) h
    · exact ih (s := emit (.subFault k j id) (offerDelivery k j id v s)) h
    · cases h

/-- Where no delivery hangs at the end, none did before (R157). -/
theorem inFlight_of_publishAll {kvs : List (Kind × Value)} {s : State} (h : (publishAll kvs s).inFlight = none) :
    s.inFlight = none := by
  induction kvs generalizing s with
  | nil => exact h
  | cons kv kvs ih => exact inFlight_of_deliverFrom (s := emit _ s) (ih h)

/-- Well-formed frames received from IDLE are published one after another (R119). -/
theorem pushBytes_frames {frames : List Instr} {kvs : List (Kind × Value)} {s : State} (h : s.Accepts)
    (hnil : s.acc = []) (hw : ∀ i ∈ frames, i.WellFormed)
    (hkv : frames.map (fun i => (i.kind, i.value)) = kvs.map (fun p => (some p.1, some p.2)))
    (hf : (publishAll kvs s).inFlight = none) :
    pushBytes runCandidate (frames.flatMap encode) s = .next (publishAll kvs s) := by
  induction frames generalizing kvs s with
  | nil =>
    cases kvs with
    | nil => rfl
    | cons kv kvs => cases hkv
  | cons i frames ih =>
    cases kvs with
    | nil => cases hkv
    | cons kv kvs =>
      obtain ⟨k, v⟩ := kv
      simp only [List.map_cons, List.cons.injEq, Prod.mk.injEq] at hkv
      obtain ⟨⟨hk, hv⟩, htail⟩ := hkv
      have hs : { s with acc := [] } = s := by rw [← hnil]
      have hfirst := pushBytes_of_wellFormed hk hv (hw i (List.mem_cons_self ..)) h (.inl hnil)
      rw [hs] at hfirst
      have hpub : (publish k v s).inFlight = none := inFlight_of_publishAll hf
      rw [List.flatMap_cons, pushBytes_append runCandidate _ _ hfirst hpub]
      exact ih ⟨(publish_run k v s).trans h.1, hpub⟩ ((publish_acc k v s).trans hnil)
        (fun j hj => hw j (List.mem_cons_of_mem i hj)) htail hf

/-- Every packet begins with AA (R61, R74). -/
theorem encode_cons (i : Instr) : ∃ rest, encode i = 0xAA :: rest := by
  cases hk : i.kind with
  | none => exact encode_outbound_cons hk
  | some k =>
    obtain ⟨rest, hrest⟩ := head_of_magicAt (magicAt_encode i k hk)
    exact ⟨_, hrest⟩

/-- Settles O58: the first frame's AA drops one held before it, and from IDLE the frames come one after another. -/
theorem framesArePublishedInStreamOrder : Obligations.FramesArePublishedInStreamOrder := by
  intro frames kvs s h hb hne hw hkv hf
  have hidle := pushBytes_frames (s := { s with acc := [] }) h rfl hw hkv hf
  obtain ⟨i, frames, rfl⟩ := List.exists_cons_of_ne_nil hne
  obtain ⟨rest, hrest⟩ := encode_cons i
  rw [List.flatMap_cons, hrest, List.cons_append] at hidle ⊢
  rw [execCandidate_eq, pushBytes_AA_of_between runCandidate _ h hb, hidle]

end Sys2Proof.Machine
end

section
/-! PROOFS of 42_packet_decode.md, the fields and the encoders: what the decode rules read, what the checksum of an
encoding covers, and the reference encoders' writes as the encoding of a sealed frame. -/

namespace Sys2Proof.Machine

/-! ## The fields of a candidate (R131 to R134) -/

/-- A field of a word's own width is read whole: no bit of the bytes is lost (R134). -/
theorem toNat_ofNat_memRead {w n : Nat} (F : List Byte) (off : Nat) (hw : 256 ^ n = 2 ^ w) :
    (BitVec.ofNat w (memRead F off n)).toNat = memRead F off n := by
  rw [BitVec.toNat_ofNat, Nat.mod_eq_of_lt (hw ▸ memRead_lt F off n)]

theorem read64x5_toNat (F : List Byte) (off : Nat) :
    (read64x5 F off).toList.map BitVec.toNat = (List.range 5).map (fun i => memRead F (off + 8 * i) 8) := by
  have hread : ∀ o, (BitVec.ofNat 64 (memRead F o 8)).toNat = memRead F o 8 :=
    fun o => toNat_ofNat_memRead F o (by decide)
  simp only [read64x5, Five.toList, List.map_cons, List.map_nil, hread]
  rfl

theorem read32x5_toNat (F : List Byte) (off : Nat) :
    (read32x5 F off).toList.map BitVec.toNat = (List.range 5).map (fun i => memRead F (off + 4 * i) 4) := by
  have hread : ∀ o, (BitVec.ofNat 32 (memRead F o 4)).toNat = memRead F o 4 :=
    fun o => toNat_ofNat_memRead F o (by decide)
  simp only [read32x5, Five.toList, List.map_cons, List.map_nil, hread]
  rfl

/-- Settles O12: the prefix is 4 bytes of a ControlStatus and 2 of the others, and each field is read at its width. -/
theorem inboundFieldsAreRead : Obligations.InboundFieldsAreRead := fun F =>
  ⟨⟨toNat_ofNat_memRead F 4 (by decide), toNat_ofNat_memRead F 8 (by decide), toNat_ofNat_memRead F 16 (by decide),
    toNat_ofNat_memRead F 24 (by decide), read64x5_toNat F 32⟩, read32x5_toNat F 2, rfl⟩

/-! ## The checksum of an encoding (R66, R67) -/

theorem two_le_bodyBytes_length (i : Instr) : 2 ≤ (bodyBytes i).length := by
  have hfive := five_le_encode_length i
  rw [encode, List.length_append, leBytes_length] at hfive
  omega

/-- The covered bytes of an encoding are those of its body behind the magic: the trailer is not among them (R66). -/
theorem coveredBytes_encode (i : Instr) : coveredBytes (encode i) = (bodyBytes i).drop 2 := by
  have hbody := two_le_bodyBytes_length i
  rw [coveredBytes, encode, List.drop_append_of_le_length hbody]
  exact List.take_left' (by rw [List.length_drop, List.length_append, leBytes_length]; omega)

theorem bodyBytes_withCk (i : Instr) (ck : Bits16) : bodyBytes (i.withCk ck) = bodyBytes i := by cases i <;> rfl

theorem encode_withCk (i : Instr) (ck : Bits16) : encode (i.withCk ck) = bodyBytes i ++ leBytes 2 ck.toNat := by
  cases i <;> rfl

@[simp] theorem kind_withCk (i : Instr) (ck : Bits16) : (i.withCk ck).kind = i.kind := by cases i <;> rfl

@[simp] theorem value_withCk (i : Instr) (ck : Bits16) : (i.withCk ck).value = i.value := by cases i <;> rfl

/-- The sender's checksum does not depend on the trailer (R66). -/
theorem senderCk_withCk (i : Instr) (ck : Bits16) : (i.withCk ck).senderCk = i.senderCk := by
  have hmod : (i.withCk ck).ckModulus = i.ckModulus := by cases i <;> rfl
  rw [Instr.senderCk, Instr.senderCk, coveredBytes_encode, coveredBytes_encode, bodyBytes_withCk, hmod]

/-- A packet with the trailer its sender computes is well-formed (R117). -/
theorem sealed_wellFormed (i : Instr) : i.sealed.WellFormed := by
  have hck : i.sealed.ck = i.sealed.senderCk := by
    rw [Instr.sealed, senderCk_withCk]
    cases i <;> rfl
  exact beq_iff_eq.2 hck

/-! ## The reference encoders (R137 to R139) -/

/-- MemWrite behind a written part replaces the bytes there (R8). -/
theorem memWrite_append {A : List Byte} {off : Nat} (B : List Byte) (n v : Nat) (h : A.length = off) :
    memWrite (A ++ B) off n v = (A ++ leBytes n v) ++ B.drop n := by
  rw [memWrite, List.take_left' h, ← h, List.drop_append, List.drop_of_length_le (by omega), List.nil_append,
    Nat.add_sub_cancel_left]

/-- A blank frame is the magic and the rest of the prefix, blank fields, and the bytes behind them. -/
theorem blankFrame_eq (k : Kind) (pre : Bytes k.preBytes) (post : Bytes k.postBytes) :
    blankFrame k pre post =
      (k.magic ++ pre.list) ++ (List.replicate k.fieldBytes 0 ++ (post.list ++ [0, 0])) := by
  rw [blankFrame, inboundBody, List.append_assoc, List.append_assoc]

theorem length_magic_pre (k : Kind) (pre : Bytes k.preBytes) : (k.magic ++ pre.list).length = k.pfx := by
  have hfit := kindTable_fits k
  rw [List.length_append, pre.length_eq, kind_magic_length, Kind.preBytes]
  omega

/-- With as many bytes written as there are blank fields, what stands behind them is the rest of the frame (R60). -/
theorem append_drop_blankFields {k : Kind} {n : Nat} (h : n = k.fieldBytes) (pre : Bytes k.preBytes)
    (fields : List Byte) (post : Bytes k.postBytes) :
    (k.magic ++ pre.list ++ fields) ++ (List.replicate k.fieldBytes 0 ++ (post.list ++ [0, 0])).drop n =
      inboundBody k pre fields post ++ leBytes 2 (0 : Bits16).toNat := by
  have hblank : leBytes 2 (0 : Bits16).toNat = [0, 0] := by decide
  rw [List.drop_left' (by rw [List.length_replicate, h]), inboundBody, ← List.append_assoc, hblank]

/-- The last step of the encoders seals the frame: it writes the sender's checksum over the trailer (R137, R138). -/
theorem withTrailer_encode {i : Instr} {k : Kind} (h : i.kind = some k) :
    withTrailer k (encode i) = encode i.sealed := by
  have hlen : (bodyBytes i).length = k.len - 2 := by
    rw [← encode_length_of_kind i k h, encode, List.length_append, leBytes_length, Nat.add_sub_cancel]
  rw [withTrailer, ← senderCk_eq_ckOf h, encode, memWrite_append _ 2 _ hlen, List.drop_of_length_le (by simp),
    List.append_nil, Instr.sealed, encode_withCk]

theorem length_append_leBytes {A : List Byte} {off : Nat} (n v : Nat) (h : A.length = off) :
    (A ++ leBytes n v).length = off + n := by
  rw [List.length_append, leBytes_length, h]

/-- Five like fields of `n` bytes written one behind the other (R137, R138). -/
theorem memWrite_five {w : Nat} {A : List Byte} {p : Nat} (n : Nat) (B : List Byte) (v : Five (BitVec w))
    (h : A.length = p) :
    memWrite (memWrite (memWrite (memWrite (memWrite (A ++ B) p n v.at0.toNat) (p + n) n v.at1.toNat) (p + 2 * n) n
      v.at2.toNat) (p + 3 * n) n v.at3.toNat) (p + 4 * n) n v.at4.toNat =
      (A ++ v.toList.flatMap (fun x => leBytes n x.toNat)) ++ B.drop (5 * n) := by
  rw [memWrite_append _ n _ h, memWrite_append _ n _ (by simp; omega), memWrite_append _ n _ (by simp; omega),
    memWrite_append _ n _ (by simp; omega), memWrite_append _ n _ (by simp; omega), List.drop_drop, List.drop_drop,
    List.drop_drop, List.drop_drop, show 5 * n = n + (n + (n + (n + n))) by omega]
  simp only [Five.toList, List.flatMap_cons, List.flatMap_nil, List.append_nil, List.append_assoc]

theorem memWrite_bytes64x5 {A : List Byte} {p : Nat} (B : List Byte) (v : Five Bits64) (h : A.length = p) :
    memWrite (memWrite (memWrite (memWrite (memWrite (A ++ B) p 8 v.at0.toNat) (p + 8) 8 v.at1.toNat) (p + 16) 8
      v.at2.toNat) (p + 24) 8 v.at3.toNat) (p + 32) 8 v.at4.toNat = (A ++ bytes64x5 v) ++ B.drop 40 :=
  memWrite_five 8 B v h

theorem memWrite_bytes32x5 {A : List Byte} {p : Nat} (B : List Byte) (v : Five Bits32) (h : A.length = p) :
    memWrite (memWrite (memWrite (memWrite (memWrite (A ++ B) p 4 v.at0.toNat) (p + 4) 4 v.at1.toNat) (p + 8) 4
      v.at2.toNat) (p + 12) 4 v.at3.toNat) (p + 16) 4 v.at4.toNat = (A ++ bytes32x5 v) ++ B.drop 20 :=
  memWrite_five 4 B v h

/-- ENC_CS writes the fields in wire order behind the prefix, then seals the frame (R137). -/
theorem encCs_eq (pre : Bytes Kind.cs.preBytes) (post : Bytes Kind.cs.postBytes) (smp : Sample) :
    encCs pre post smp = encode (Instr.sealed (.cs pre post smp 0)) := by
  have h0 := length_magic_pre .cs pre
  have h1 := length_append_leBytes 4 smp.tick.toNat h0
  have h2 : _ = Kind.cs.pfx + 12 := length_append_leBytes 8 smp.degree.toNat h1
  have h3 : _ = Kind.cs.pfx + 20 := length_append_leBytes 8 smp.cmX.toNat h2
  have h4 : _ = Kind.cs.pfx + 28 := length_append_leBytes 8 smp.setspeed.toNat h3
  have hfields : Kind.cs.magic ++ pre.list ++ leBytes 4 smp.tick.toNat ++ leBytes 8 smp.degree.toNat ++
      leBytes 8 smp.cmX.toNat ++ leBytes 8 smp.setspeed.toNat ++ bytes64x5 smp.reserved =
      Kind.cs.magic ++ pre.list ++ sampleBytes smp := by simp only [sampleBytes, List.append_assoc]
  rw [← withTrailer_encode (k := .cs) rfl, encCs, blankFrame_eq, memWrite_append _ 4 _ h0, memWrite_append _ 8 _ h1,
    memWrite_append _ 8 _ h2, memWrite_append _ 8 _ h3, memWrite_bytes64x5 _ smp.reserved h4, List.drop_drop,
    List.drop_drop, List.drop_drop, List.drop_drop, hfields]
  exact congrArg (withTrailer .cs) (append_drop_blankFields (by decide) pre (sampleBytes smp) post)

/-- ENC_GA writes the five gains behind the prefix, then seals the frame (R138). -/
theorem encGa_eq (f : Framed .ga Gains) : encGa f = encode (Instr.sealed (.ga f 0)) := by
  rw [← withTrailer_encode (k := .ga) rfl, encGa, blankFrame_eq,
    memWrite_bytes32x5 _ f.fields.gains (length_magic_pre .ga f.pre)]
  exact congrArg (withTrailer .ga) (append_drop_blankFields (by decide) f.pre (bytes32x5 f.fields.gains) f.post)

/-- ENC_RA writes the status byte behind the prefix, then seals the frame (R139). -/
theorem encRa_eq (f : Framed .ra Byte) : encRa f = encode (Instr.sealed (.ra f 0)) := by
  have hst : leBytes 1 f.fields.toNat = [f.fields] := by simp
  rw [← withTrailer_encode (k := .ra) rfl, encRa, blankFrame_eq, memWrite_append _ 1 _ (length_magic_pre .ra f.pre),
    hst]
  exact congrArg (withTrailer .ra) (append_drop_blankFields (by decide) f.pre [f.fields] f.post)

/-! ## The encodings byte for byte (R62 to R64) -/

theorem bodyBytes_csFrame (u0 u1 : Byte) (smp : Sample) (ck : Bits16) :
    bodyBytes (csFrame u0 u1 smp ck) = [0xAA, 0xCC, u0, u1] ++ sampleBytes smp := List.append_nil _

theorem encode_csFrame (u0 u1 : Byte) (smp : Sample) (ck : Bits16) :
    encode (csFrame u0 u1 smp ck) = [0xAA, 0xCC, u0, u1] ++ sampleBytes smp ++ leBytes 2 ck.toNat := by
  rw [encode, bodyBytes_csFrame]
  rfl

theorem encode_gaFrame (g : Gains) (ck : Bits16) :
    encode (gaFrame g ck) = [0xAA, 0xDD] ++ bytes32x5 g.gains ++ leBytes 2 ck.toNat := by
  have hbody : bodyBytes (gaFrame g ck) = [0xAA, 0xDD] ++ bytes32x5 g.gains := List.append_nil _
  rw [encode, hbody]
  rfl

theorem encode_raFrame (st : Byte) (ck : Bits16) :
    encode (raFrame st ck) = [0xAA, 0xEE, st] ++ leBytes 2 ck.toNat := rfl

/-- A sealed ResetAck carries its status byte as its trailer (R68, R139). -/
theorem encode_sealed_ra (f : Framed .ra Byte) (ck : Bits16) :
    encode (Instr.sealed (.ra f ck)) = [0xAA, 0xEE, f.fields, f.fields, 0x00] := by
  have hk : (Instr.sealed (.ra f ck)).kind = some .ra := rfl
  obtain ⟨st, hst⟩ := ra_of_match (encode_length_of_kind _ _ hk) (magicAt_encode _ _ hk)
    ((wellFormed_iff_of_kind _ _ hk).1 (sealed_wellFormed _))
  have hfields : f.fields = st := by
    have hbytes : encode (raFrame f.fields (Instr.senderCk (.ra f ck))) = [0xAA, 0xEE, st, st, 0x00] := by
      rw [← ra_eq_raFrame]; exact hst
    rw [encode_raFrame] at hbytes
    exact (List.cons.inj (List.cons.inj (List.cons.inj hbytes).2).2).1
  rw [hst, hfields]

/-- Settles O4: each MemWrite fills the next of the blank bytes, and the trailer is written over last. -/
theorem referenceEncodersBuildSealedFrames : Obligations.ReferenceEncodersBuildSealedFrames := by
  intro pre post smp g st ck
  obtain ⟨u0, u1, hcs⟩ := cs_eq_csFrame pre post
  refine ⟨⟨encCs_eq pre post smp, encGa_eq g, encRa_eq st, (encRa_eq st).trans (encode_sealed_ra st 0)⟩,
    ⟨u0, u1, ?_, ?_⟩, ?_, ?_⟩
  · exact (Instr.cs.inj (hcs smp ck)).1
  · rw [hcs, encode_csFrame]
  · rw [ga_eq_gaFrame, encode_gaFrame]
  · rw [ra_eq_raFrame, encode_raFrame]

end Sys2Proof.Machine
end

section
/-! PROOFS of 42_packet_decode.md, the effect of a decoded frame: the unparsed bytes of a ControlStatus, and the round
trip of every kind. -/

namespace Sys2Proof.Machine

/-! ## The unparsed bytes (R135) -/

/-- The sender's checksum of a ControlStatus, with the unparsed bytes apart from the Sample's (R66, R135). -/
theorem senderCk_csFrame (u0 u1 : Byte) (smp : Sample) (ck : Bits16) :
    (csFrame u0 u1 smp ck).senderCk =
      u0.setWidth 16 + (u1.setWidth 16 + BitVec.ofNat 16 (byteSum (sampleBytes smp))) := by
  have hcov : coveredBytes (encode (csFrame u0 u1 smp ck)) = u0 :: u1 :: sampleBytes smp := by
    rw [coveredBytes_encode, bodyBytes_csFrame]
    rfl
  rw [senderCk_eq_ckOf (k := .cs) rfl, ckOf_eq_ofNat, hcov, byteSum_cons, byteSum_cons, BitVec.ofNat_add,
    BitVec.ofNat_add, BitVec.ofNat_toNat, BitVec.ofNat_toNat]

/-- An inbound frame has no step while a delivery hangs (R157). -/
theorem exec_of_hung {i : Instr} {k : Kind} {s : State} {d : Delivery} (hk : i.kind = some k)
    (hf : s.inFlight = some d) : exec i s = .fault .deliveryHung := by
  obtain ⟨v, -, hexec⟩ := exec_eq_checkCandidate hk s
  rw [hexec, checkCandidate, hf]

/-- Well-formed frames of one kind and one value have the same effect in every state: the publish of that value, and no
step where a delivery hangs (R108, R157). -/
theorem exec_eq_of_wellFormed {i j : Instr} {k : Kind} {v : Value} (hi : i.kind = some k) (hj : j.kind = some k)
    (hiv : i.value = some v) (hjv : j.value = some v) (hiw : i.WellFormed) (hjw : j.WellFormed) (s : State) :
    exec i s = exec j s := by
  cases hf : s.inFlight with
  | none => rw [exec_of_wellFormed hi hiv hiw hf, exec_of_wellFormed hj hjv hjw hf]
  | some d => rw [exec_of_hung hi hf, exec_of_hung hj hf]

/-- Settles O13: the checksum is the unparsed bytes and the Sample's sum; a delivery carries the Sample alone. -/
theorem unparsedBytesAreSummedNotDelivered : Obligations.UnparsedBytesAreSummedNotDelivered := by
  intro u0 u1 w0 w1 smp ck ck' s
  refine ⟨?_, fun hu hw => exec_eq_of_wellFormed (k := .cs) rfl rfl rfl rfl hu hw s⟩
  have hzero : (0 : Byte).setWidth 16 = 0#16 := rfl
  rw [senderCk_csFrame, senderCk_csFrame, hzero, BitVec.zero_add, BitVec.zero_add, ← BitVec.add_assoc,
    BitVec.add_comm, ← BitVec.add_assoc]

/-! ## The round trip (R140) -/

/-- A sealed frame matches its checksum, is read back as its own value, and received from IDLE is published, FRAME_OK of
the value first (R140). -/
theorem sealed_roundTrip {i : Instr} {k : Kind} {v : Value} {F : List Byte} (hk : i.kind = some k)
    (hv : i.value = some v) (hF : F = encode i.sealed) :
    ckOf F = trailerOf F ∧ (frameInstr k F).value = some v ∧
      ∀ s : State, s.Accepts → s.acc = [] →
        ∃ t, pushBytes execCandidate F s = .next t ∧ (s.trace ++ [.frameOk k v]) <+: t.trace := by
  have hk' : i.sealed.kind = some k := (kind_withCk i _).trans hk
  have hv' : i.sealed.value = some v := (value_withCk i _).trans hv
  have hw := sealed_wellFormed i
  rw [hF]
  refine ⟨(wellFormed_iff_of_kind _ k hk').1 hw, by rw [frameInstr_encode hk', hv'], fun s h hnil => ?_⟩
  obtain ⟨es, htrace, -⟩ := publish_trace k v { s with acc := [] }
  refine ⟨_, execCandidate_eq ▸ pushBytes_of_wellFormed hk' hv' hw h (.inl hnil), es, ?_⟩
  rw [htrace, List.append_assoc, List.singleton_append]

/-- Settles O3: the reference encoders build sealed frames, one of each kind. -/
theorem roundTripOfEveryKind : Obligations.RoundTripOfEveryKind := by
  intro u0 u1 smp g st cs ga ra hcs hga hra
  obtain ⟨hckCs, hvCs, hpushCs⟩ := sealed_roundTrip (k := .cs) rfl rfl (hcs.trans (encCs_eq _ _ _))
  obtain ⟨hckGa, hvGa, hpushGa⟩ := sealed_roundTrip (k := .ga) rfl rfl (hga.trans (encGa_eq _))
  obtain ⟨hckRa, hvRa, hpushRa⟩ := sealed_roundTrip (k := .ra) rfl rfl (hra.trans (encRa_eq _))
  have hdecCs : decodeCs cs = smp := Value.sample.inj (Option.some.inj hvCs)
  have hdecGa : decodeGa ga = g := Value.gains.inj (Option.some.inj hvGa)
  have hdecRa : decodeRa ra = st := Value.status.inj (Option.some.inj hvRa)
  exact ⟨⟨hckCs, hckGa, hckRa⟩, ⟨hdecCs, hdecGa, hdecRa⟩,
    fun s h hnil => ⟨hpushCs s h hnil, hpushGa s h hnil, hpushRa s h hnil⟩⟩

end Sys2Proof.Machine
end

section
/-! PROOFS of 43_dispatcher.md, the publish: the events of its deliveries in registration order, the first delivery that
hangs, and what each of the two leaves alone. -/

namespace Sys2Proof.Machine

/-! ## The events of the deliveries to a bank (R154) -/

/-- An entry of the first part of a list is the list's at the same index. -/
theorem getElem?_of_prefix {α : Type} {A B : List α} {j : Nat} {x : α} (h : A <+: B) (hx : A[j]? = some x) :
    B[j]? = some x := by
  obtain ⟨C, rfl⟩ := h
  obtain ⟨hj, -⟩ := List.getElem?_eq_some_iff.1 hx
  rw [List.getElem?_append_left hj, hx]

/-- The events of the deliveries to two parts of a bank, the second from where the first ends. -/
theorem deliveryEvents_append (k : Kind) (v : Value) (s : State) (j : Nat) (A B : List SubId) :
    deliveryEvents k v s j (A ++ B) = deliveryEvents k v s j A ++ deliveryEvents k v s (j + A.length) B := by
  induction A generalizing j with
  | nil => rfl
  | cons id A ih =>
    have hindex : j + 1 + A.length = j + (id :: A).length := by rw [List.length_cons]; omega
    simp only [List.cons_append, deliveryEvents, ih, hindex, List.append_assoc]

/-- The events of the delivery to the last entry come last (R154, R156). -/
theorem deliveryEvents_concat (k : Kind) (v : Value) (s : State) (L : List SubId) (id : SubId) :
    deliveryEvents k v s 0 (L ++ [id]) = deliveryEvents k v s 0 L ++
      .deliver k L.length id v :: (if outcomeAt s L.length id = .fault then [.subFault k L.length id] else []) := by
  rw [deliveryEvents_append, Nat.zero_add, deliveryEvents, deliveryEvents, List.append_nil]

/-- A delivery among the events is of their kind and value, to the entry at its index (R158, R161). -/
theorem getElem?_of_mem_deliveryEvents {k k' : Kind} {v v' : Value} {s : State} {L : List SubId} {j : Nat} {id : SubId}
    (h : .deliver k' j id v' ∈ deliveryEvents k v s 0 L) : k' = k ∧ v' = v ∧ L[j]? = some id := by
  induction L using List.reverseRecOn with
  | nil => cases h
  | append_singleton L last ih =>
    rw [deliveryEvents_concat, List.mem_append, List.mem_cons] at h
    obtain hbefore | hlast | hfault := h
    · obtain ⟨hk, hv, hentry⟩ := ih hbefore
      exact ⟨hk, hv, getElem?_of_prefix (List.prefix_append L [last]) hentry⟩
    · cases hlast
      exact ⟨rfl, rfl, List.getElem?_concat_length⟩
    · split at hfault <;> simp at hfault

/-! ## The publish up to an entry (R154, R156) -/

/-- No delivery to the entries of a bank, from its first on, hangs in a publish that begins in `s` (R156). -/
def NoHang (s : State) (L : List SubId) : Prop := ∀ j id, L[j]? = some id → outcomeAt s j id ≠ .hang

/-- The state after the FRAME_OK of a publish from `s` and its deliveries to the first entries `L` of the bank, none of
which hangs. -/
def publishedTo (k : Kind) (v : Value) (s : State) (L : List SubId) : State :=
  { s with
    trace := s.trace ++ .frameOk k v :: deliveryEvents k v s 0 L
    drawCount := s.drawCount + L.length }

/-- One entry more: the deliveries before it and its own. -/
theorem noHang_concat {s : State} {L : List SubId} {id : SubId} :
    NoHang s (L ++ [id]) ↔ NoHang s L ∧ outcomeAt s L.length id ≠ .hang := by
  constructor
  · intro h
    exact ⟨fun j id' hj => h j id' (getElem?_of_prefix (List.prefix_append L [id]) hj),
      h L.length id List.getElem?_concat_length⟩
  · rintro ⟨hL, hid⟩ j id' hj
    obtain hlt | rfl | hgt := Nat.lt_trichotomy j L.length
    · exact hL j id' (by rwa [List.getElem?_append_left hlt] at hj)
    · rw [List.getElem?_concat_length] at hj
      cases hj
      exact hid
    · rw [List.getElem?_eq_none (by simpa using hgt)] at hj
      cases hj

/-- The next delivery, where it does not hang: OK, or FAULT with its event (R156). -/
theorem deliverFrom_publishedTo_cons (k : Kind) (v : Value) {s : State} (L rest : List SubId) {id : SubId}
    (h : outcomeAt s L.length id ≠ .hang) :
    deliverFrom k v L.length (id :: rest) (publishedTo k v s L) =
      deliverFrom k v (L ++ [id]).length rest (publishedTo k v s (L ++ [id])) := by
  have hdraw : drawOutcome (publishedTo k v s L) id = outcomeAt s L.length id := rfl
  rw [deliverFrom, hdraw, List.length_append, List.length_singleton]
  cases hout : outcomeAt s L.length id with
  | ok =>
    have hnext : publishedTo k v s (L ++ [id]) = offerDelivery k L.length id v (publishedTo k v s L) := by
      simp [publishedTo, deliveryEvents_concat, hout, offerDelivery, emit, Nat.add_assoc]
    rw [hnext]
  | fault =>
    have hnext : publishedTo k v s (L ++ [id]) =
        emit (.subFault k L.length id) (offerDelivery k L.length id v (publishedTo k v s L)) := by
      simp [publishedTo, deliveryEvents_concat, hout, offerDelivery, emit, Nat.add_assoc]
    rw [hnext]
  | hang => exact absurd hout h

/-- The deliveries to entries of which none hangs, and then those to the entries after them (R154). -/
theorem deliverFrom_append (k : Kind) (v : Value) {s : State} {L : List SubId} (h : NoHang s L) (rest : List SubId) :
    deliverFrom k v 0 (L ++ rest) (emit (.frameOk k v) s) = deliverFrom k v L.length rest (publishedTo k v s L) := by
  induction L using List.reverseRecOn generalizing rest with
  | nil => rfl
  | append_singleton L id ih =>
    obtain ⟨hL, hid⟩ := noHang_concat.1 h
    rw [List.append_assoc, List.singleton_append, ih hL, deliverFrom_publishedTo_cons k v L rest hid]

/-! ## What a publish can do (R156, R157) -/

section publish
variable {k : Kind} {v : Value} {s : State}

/-- Where no delivery hangs, a publish reaches the end of the bank (R154). -/
theorem publish_of_noHang (h : NoHang s (s.subtab.bank k)) :
    publish k v s = publishedTo k v s (s.subtab.bank k) := by
  have hend := deliverFrom_append k v h []
  rwa [List.append_nil, deliverFrom] at hend

/-- The first delivery that hangs stays on the port, and no later entry is offered the value (R157). -/
theorem publish_of_hang {before after : List SubId} {id : SubId} (hbank : s.subtab.bank k = before ++ id :: after)
    (hbefore : NoHang s before) (hhang : outcomeAt s before.length id = .hang) :
    publish k v s =
      { offerDelivery k before.length id v (publishedTo k v s before) with
        inFlight := some { kind := k, index := before.length, subId := id, value := v } } := by
  have hdraw : drawOutcome (publishedTo k v s before) id = .hang := hhang
  rw [publish, hbank, deliverFrom_append k v hbefore, deliverFrom, hdraw]

/-- No delivery to the entries of a bank hangs, or there is a first one that does. -/
theorem noHang_or_first_hang (s : State) (L : List SubId) :
    NoHang s L ∨ ∃ before id after, L = before ++ id :: after ∧ NoHang s before ∧
      outcomeAt s before.length id = .hang := by
  induction L using List.reverseRecOn with
  | nil => exact .inl fun j id h => by simp at h
  | append_singleton L last ih =>
    obtain hL | ⟨before, id, after, rfl, hbefore, hhang⟩ := ih
    · by_cases hlast : outcomeAt s L.length last = .hang
      · exact .inr ⟨L, last, [], rfl, hL, hlast⟩
      · exact .inl (noHang_concat.2 ⟨hL, hlast⟩)
    · exact .inr ⟨before, id, after ++ [last], by simp, hbefore, hhang⟩

/-- A publish with no delivery on the port after it is one in which none hangs (R157). -/
theorem noHang_of_publish_inFlight (h : (publish k v s).inFlight = none) : NoHang s (s.subtab.bank k) := by
  obtain hno | ⟨before, id, after, hbank, hbefore, hhang⟩ := noHang_or_first_hang s (s.subtab.bank k)
  · exact hno
  · rw [publish_of_hang hbank hbefore hhang] at h
    cases h

/-- A publish appends FRAME_OK and the events of the deliveries to the bank, up to the first that hangs (R154, R157). -/
theorem publish_trace_eq (k : Kind) (v : Value) (s : State) :
    ∃ L, L <+: s.subtab.bank k ∧ (publish k v s).trace = s.trace ++ .frameOk k v :: deliveryEvents k v s 0 L := by
  obtain hno | ⟨before, id, after, hbank, hbefore, hhang⟩ := noHang_or_first_hang s (s.subtab.bank k)
  · exact ⟨_, List.prefix_rfl, by rw [publish_of_noHang hno, publishedTo]⟩
  · refine ⟨before ++ [id], ⟨after, by rw [hbank, List.append_assoc, List.singleton_append]⟩, ?_⟩
    rw [publish_of_hang hbank hbefore hhang, deliveryEvents_concat, hhang]
    simp [publishedTo]

/-- With no subscriber the publish is its FRAME_OK (R159). -/
theorem publish_of_bank_nil (h : s.subtab.bank k = []) : publish k v s = emit (.frameOk k v) s := by
  rw [publish, h, deliverFrom]

end publish

/-- Settles O27: the publish reaches the end of the bank. -/
theorem publishDeliversInOrder : Obligations.PublishDeliversInOrder :=
  fun _ _ _ h => publish_of_noHang h

/-- Settles O28: the bytes after one that hangs are held back, and the publish ends at its first delivery that hangs. -/
theorem hangStopsThePublish : Obligations.HangStopsThePublish := by
  constructor
  · intro b bs s t h ht
    have hb : pushByte execCandidate b s = .next t := h
    have hchunk : runOp (.pushChunk (b :: bs)) s = .next (holdBack bs t) := by
      simp only [runOp, pushBytes, hb, Option.isSome_iff_ne_none.2 ht, if_true]
    rw [hchunk]
    cases bs <;> rfl
  · intro k v s before after id hbank hbefore hhang
    rw [publish_of_hang hbank hbefore hhang]
    simp [publishedTo, offerDelivery, emit]

/-- Settles O31: a delivery of the publish is among the events of the bank's first entries. -/
theorem deliveriesGoToTheKindsSubscribers : Obligations.DeliveriesGoToTheKindsSubscribers := by
  intro k v s es hes k' j id v' hmem
  obtain ⟨L, hprefix, htrace⟩ := publish_trace_eq k v s
  rw [List.append_cancel_left (hes.symm.trans htrace), List.mem_cons] at hmem
  obtain hframe | hdeliver := hmem
  · cases hframe
  · obtain ⟨hk, hv, hentry⟩ := getElem?_of_mem_deliveryEvents hdeliver
    exact ⟨hk, hv, getElem?_of_prefix hprefix hentry⟩

/-- Settles O20: the frame is published, and its bank is empty. -/
theorem frameWithNoSubscriber : Obligations.FrameWithNoSubscriber := by
  intro i k v s hk hv hw hf hbank
  rw [exec_of_wellFormed hk hv hw hf, publish_of_bank_nil hbank]
  rfl

theorem sameRecord_publish (k : Kind) (v : Value) (s : State) : SameRecord (publish k v s) s :=
  ⟨publish_run k v s, publish_acc k v s, publish_crcErrCnt k v s, publish_subtab k v s⟩

/-- Settles O30: a publish leaves the record alone, field by field. -/
theorem subscriberFailureChangesNoState : Obligations.SubscriberFailureChangesNoState :=
  fun k v s => ⟨sameRecord_publish k v s, publish_pending k v s⟩

/-! ## After a hang (R157) -/

/-- No byte is accepted while a delivery hangs (R157). -/
theorem pushBytes_cons_of_hung (run : Executor) (b : Byte) (bs : List Byte) {s : State} {d : Delivery}
    (hf : s.inFlight = some d) : pushBytes run (b :: bs) s = .fault .deliveryHung := by
  simp only [pushBytes, pushByte, hf]

/-- An outbound packet is at least one byte, and so has no step while a delivery hangs (R157). -/
theorem exec_outbound_of_hung {i : Instr} {s : State} {d : Delivery} (hk : i.kind = none) (hf : s.inFlight = some d) :
    exec i s = .fault .deliveryHung := by
  obtain ⟨rest, hrest⟩ := encode_outbound_cons hk
  rw [exec_outbound hk, hrest, pushBytes_cons_of_hung runCandidate _ rest hf]

theorem step_of_hung {s : State} {d : Delivery} (hf : s.inFlight = some d) : step s = .fault .deliveryHung := by
  simp only [step, stepMachine, hf]

/-- Settles O29: no step and no instruction of either family after a hang; the levels by their definitions. -/
theorem hungMachineHasNoStep : Obligations.HungMachineHasNoStep := by
  intro s
  refine ⟨fun d hf => ⟨step_of_hung hf, fun i => ?_⟩, ?_, Option.isSome_iff_exists⟩
  · cases hk : i.kind with
    | none => exact exec_outbound_of_hung hk hf
    | some k => exact exec_of_hung hk hf
  · rw [inReady, Bool.and_eq_true, beq_iff_eq, beq_iff_eq]

end Sys2Proof.Machine
end

section
/-! PROOFS of 43_dispatcher.md, the subscriber table: what SUBSCRIBE does with each kind code, and that no other operation
but RESET writes a table. -/

namespace Sys2Proof.Machine

/-- A code names the kind that has it (R6). -/
theorem kindOfCode_eq_some_iff {kc : BitVec 2} {k : Kind} : kindOfCode kc = some k ↔ k.kcode = kc := by
  constructor
  · intro h
    have hcode := List.find?_some (show Kind.all.find? (fun k => k.kcode == kc) = some k from h)
    exact beq_iff_eq.1 hcode
  · rintro rfl
    cases k <;> rfl

/-! ## SUBSCRIBE (R151 to R153) -/

section opSubscribe
variable {kc : BitVec 2} {k : Kind} {s : State}

theorem opSubscribe_of_badKind (id : SubId) (h : kindOfCode kc = none) :
    opSubscribe kc id s = { emit (.subReject kc id .badKind) s with answer := some .rejected } := by
  rw [opSubscribe, h]

theorem opSubscribe_of_full (id : SubId) (h : kindOfCode kc = some k)
    (hfull : Config.nSub ≤ (s.subtab.bank k).length) :
    opSubscribe kc id s = { emit (.subReject kc id .full) s with answer := some .rejected } := by
  simp only [opSubscribe, h, if_pos hfull]

theorem opSubscribe_of_room (id : SubId) (h : kindOfCode kc = some k)
    (hroom : (s.subtab.bank k).length < Config.nSub) :
    opSubscribe kc id s = { s with subtab := s.subtab.append k id, answer := some .accepted } := by
  simp only [opSubscribe, h, if_neg (Nat.not_le_of_lt hroom)]

end opSubscribe

/-- Settles O32: no kind has code 3; a kind's own code selects its bank, which is full or has room. -/
theorem subscribeRegistersOrRejects : Obligations.SubscribeRegistersOrRejects := by
  intro kc id s
  refine ⟨?_, fun k hk => ⟨fun hfull => ?_, fun hroom => ?_⟩⟩
  · rintro rfl
    exact congrArg Host.Outcome.next (opSubscribe_of_badKind id rfl)
  · exact congrArg Host.Outcome.next (opSubscribe_of_full id (kindOfCode_eq_some_iff.2 hk) hfull)
  · refine ⟨_, congrArg Host.Outcome.next (opSubscribe_of_room id (kindOfCode_eq_some_iff.2 hk) hroom), rfl, ?_, ?_⟩
    · exact (bank_append s.subtab k k id).trans (if_pos rfl)
    · exact fun k' hk' => (bank_append s.subtab k k' id).trans (if_neg hk')

/-! ## Who writes SUBTAB (R25, R163) -/

theorem opStart_subtab (o : Bool) (s : State) : (opStart o s).subtab = s.subtab := by
  obtain ⟨-, -, h⟩ | ⟨-, -, h⟩ | ⟨-, h⟩ := opStart_cases o s <;> simp [h]

theorem opReadReg_subtab (n : Nat) (s : State) : (opReadReg n s).subtab = s.subtab := by
  obtain ⟨v, h⟩ | h := opReadReg_cases n s <;> simp [h]

theorem opSetOutcome_subtab (id : SubId) (o : SubOutcome) (s : State) : (opSetOutcome id o s).subtab = s.subtab := by
  obtain ⟨d, h⟩ := opSetOutcome_eq id o s
  rw [h]

/-- Settles O34: SUBSCRIBE rejects or appends, RESET clears, and every other operation leaves the tables alone. -/
theorem subtabIsWrittenOnlyBySubscribeAndReset : Obligations.SubtabIsWrittenOnlyBySubscribeAndReset := by
  intro op s t h
  cases op with
  | pushByte b => exact .inl (pushByte_receives (runOp_pushByte b s ▸ h)).subtab
  | pushChunk c => exact .inl (pushBytes_receives (runOp_pushChunk c s ▸ h)).subtab
  | start o => cases h; exact .inl (opStart_subtab o s)
  | subscribe kc id =>
    cases h
    obtain ⟨why, hsub⟩ | ⟨k, hk, -, hsub⟩ := opSubscribe_cases kc id s <;> rw [hsub]
    · exact .inl rfl
    · exact .inr (.inr ⟨kc, id, k, rfl, kindOfCode_eq_some_iff.1 hk, rfl⟩)
  | readReg n => cases h; exact .inl (opReadReg_subtab n s)
  | reset => cases h; exact .inr (.inl ⟨rfl, rfl⟩)
  | setOutcome id o => cases h; exact .inl (opSetOutcome_subtab id o s)
  | scriptDefaults => cases h; exact .inl rfl

end Sys2Proof.Machine
end

section
/-! PROOFS of 43_dispatcher.md, isolation: two machines that differ in their subscribers' outcomes, side by side from a
publish up to a whole byte stream. -/

namespace Sys2Proof.Machine

/-! ## Events but for SUB_FAULT -/

theorem withoutFaults_append (es es' : List Event) :
    withoutFaults (es ++ es') = withoutFaults es ++ withoutFaults es' := List.filter_append ..

/-- What outcomes the deliveries meet is seen in the SUB_FAULT events alone (R156, R158). -/
theorem withoutFaults_deliveryEvents (k : Kind) (v : Value) (s t : State) (j : Nat) (L : List SubId) :
    withoutFaults (deliveryEvents k v s j L) = withoutFaults (deliveryEvents k v t j L) := by
  induction L generalizing j with
  | nil => rfl
  | cons id L ih =>
    have hcons (u : State) : withoutFaults (deliveryEvents k v u j (id :: L)) =
        .deliver k j id v :: withoutFaults (deliveryEvents k v u (j + 1) L) := by
      rw [deliveryEvents]
      split <;> rfl
    rw [hcons, hcons, ih]

/-! ## Two runs side by side -/

/-- A run from `s` to `s'` and one from `t` to `t'` end in equal records and emit the same events but for SUB_FAULT. -/
def RunsAgree (s t s' t' : State) : Prop :=
  SameRecord s' t' ∧
    ∃ es et, s'.trace = s.trace ++ es ∧ t'.trace = t.trace ++ et ∧ withoutFaults es = withoutFaults et

/-- Nothing emitted on either side. -/
theorem RunsAgree.of_trace_eq {s t s' t' : State} (h : SameRecord s' t') (hs : s'.trace = s.trace)
    (ht : t'.trace = t.trace) : RunsAgree s t s' t' :=
  ⟨h, [], [], by rw [hs, List.append_nil], by rw [ht, List.append_nil], rfl⟩

theorem RunsAgree.trans {s t u w s' t' : State} (h : RunsAgree s t u w) (h' : RunsAgree u w s' t') :
    RunsAgree s t s' t' := by
  obtain ⟨-, es, et, hs, ht, he⟩ := h
  obtain ⟨hrec, es', et', hs', ht', he'⟩ := h'
  exact ⟨hrec, es ++ es', et ++ et', by rw [hs', hs, List.append_assoc], by rw [ht', ht, List.append_assoc],
    by rw [withoutFaults_append, withoutFaults_append, he, he']⟩

/-- The same event on both sides, with equal records. -/
theorem runsAgree_emit (e : Event) {s t : State} (h : SameRecord s t) : RunsAgree s t (emit e s) (emit e t) :=
  ⟨h, [e], [e], rfl, rfl, rfl⟩

/-- Two publishes of one value, none of whose deliveries hangs (R156, R158). -/
theorem runsAgree_publish (k : Kind) (v : Value) {s t : State} (h : SameRecord s t)
    (hs : (publish k v s).inFlight = none) (ht : (publish k v t).inFlight = none) :
    RunsAgree s t (publish k v s) (publish k v t) := by
  obtain ⟨-, -, -, hsub⟩ := id h
  have hbank : s.subtab.bank k = t.subtab.bank k := by rw [hsub]
  rw [publish_of_noHang (noHang_of_publish_inFlight hs), publish_of_noHang (noHang_of_publish_inFlight ht), hbank]
  exact ⟨h, _, _, rfl, rfl, congrArg (List.cons (Event.frameOk k v)) (withoutFaults_deliveryEvents k v s t 0 _)⟩

/-- Two checks of one candidate: both publish or both drop, since the check reads the candidate alone (R106). -/
theorem runsAgree_checkCandidate {k : Kind} {F : List Byte} {v : Value} {s t s' t' : State} (h : SameRecord s t)
    (hs : checkCandidate k F v s = .next s') (ht : checkCandidate k F v t = .next t')
    (hs' : s'.inFlight = none) (ht' : t'.inFlight = none) : RunsAgree s t s' t' := by
  rw [checkCandidate_eq k F v s (checkCandidate_cases hs).1] at hs
  rw [checkCandidate_eq k F v t (checkCandidate_cases ht).1] at ht
  by_cases hck : ckOf F = trailerOf F
  · rw [if_pos hck] at hs ht
    cases hs
    cases ht
    exact runsAgree_publish k v h hs' ht'
  · rw [if_neg hck] at hs ht
    cases hs
    cases ht
    obtain ⟨hrun, hacc, hcnt, hsub⟩ := h
    exact runsAgree_emit (.crcDrop k (trailerOf F) (ckOf F)) (s := { s with crcErrCnt := s.crcErrCnt + 1 })
      (t := { t with crcErrCnt := t.crcErrCnt + 1 }) ⟨hrun, hacc, congrArg (· + 1) hcnt, hsub⟩

/-- Two runs of one candidate's meaning, which is its check (R106). -/
theorem runsAgree_runCandidate {k : Kind} {F : List Byte} {s t s' t' : State} (h : SameRecord s t)
    (hs : runCandidate k F s = .next s') (ht : runCandidate k F t = .next t')
    (hs' : s'.inFlight = none) (ht' : t'.inFlight = none) : RunsAgree s t s' t' := by
  cases k <;> exact runsAgree_checkCandidate h hs ht hs' ht'

/-! ## The byte input side by side -/

/-- A drain on a candidate that ends with no delivery hanging is the candidate's meaning, which hangs none, and then the
drain of the rest (R110). -/
theorem drainFuel_succ_next {n : Nat} {s s' : State} {k : Kind} {F rest : List Byte}
    (ha : attempt s.acc = .candidate k F rest) (h : drainFuel runCandidate (n + 1) s = .next s')
    (hs' : s'.inFlight = none) :
    ∃ u, runCandidate k F { s with acc := rest } = .next u ∧ u.inFlight = none ∧
      drainFuel runCandidate n u = .next s' := by
  cases hr : runCandidate k F { s with acc := rest } with
  | fault r => simp [drainFuel, ha, hr] at h
  | refused r => simp [drainFuel, ha, hr] at h
  | next u =>
    have hu : u.inFlight = none := by
      by_contra hhung
      simp only [drainFuel, ha, hr, Option.isSome_iff_ne_none.2 hhung, if_true] at h
      cases h
      exact hhung hs'
    exact ⟨u, rfl, hu, (drainFuel_succ_of_candidate ha hr hu n).symm.trans h⟩

/-- Two drains of one accumulator: the attempts read the accumulator alone, and so take the same candidates (R109). -/
theorem runsAgree_drainFuel {n : Nat} {s t s' t' : State} (h : SameRecord s t)
    (hs : drainFuel runCandidate n s = .next s') (ht : drainFuel runCandidate n t = .next t')
    (hs' : s'.inFlight = none) (ht' : t'.inFlight = none) : RunsAgree s t s' t' := by
  induction n generalizing s t with
  | zero =>
    cases hs
    cases ht
    exact .of_trace_eq h rfl rfl
  | succ n ih =>
    obtain ⟨hrun, hacc, hcnt, hsub⟩ := h
    have hat : attempt t.acc = attempt s.acc := congrArg attempt hacc.symm
    cases ha : attempt s.acc with
    | stop why A =>
      simp only [drainFuel, hat, ha] at hs ht
      cases hs
      cases ht
      exact .of_trace_eq ⟨hrun, rfl, hcnt, hsub⟩ rfl rfl
    | candidate k F rest =>
      obtain ⟨u, hus, hu, hs⟩ := drainFuel_succ_next ha hs hs'
      obtain ⟨w, hwt, hw, ht⟩ := drainFuel_succ_next (hat.trans ha) ht ht'
      have hstep : RunsAgree s t u w :=
        runsAgree_runCandidate (s := { s with acc := rest }) (t := { t with acc := rest }) ⟨hrun, rfl, hcnt, hsub⟩
          hus hwt hu hw
      exact hstep.trans (ih hstep.1 hs ht)

/-- The same byte on both sides: refused on both, or received on both (R90). -/
theorem runsAgree_pushByte {b : Byte} {s t s' t' : State} (h : SameRecord s t)
    (hs : pushByte runCandidate b s = .next s') (ht : pushByte runCandidate b t = .next t')
    (hs' : s'.inFlight = none) (ht' : t'.inFlight = none) : RunsAgree s t s' t' := by
  obtain ⟨hrun, hacc, hcnt, hsub⟩ := h
  obtain ⟨-, ⟨hsrun, hs⟩ | ⟨hsrun, rfl⟩⟩ := pushByte_cases hs <;>
    obtain ⟨-, ⟨htrun, ht⟩ | ⟨htrun, rfl⟩⟩ := pushByte_cases ht
  · have hlen : (s.acc ++ [b]).length = (t.acc ++ [b]).length := by rw [hacc]
    rw [drain, hlen] at hs
    exact runsAgree_drainFuel (s := { s with acc := s.acc ++ [b] }) (t := { t with acc := t.acc ++ [b] })
      ⟨hrun, congrArg (· ++ [b]) hacc, hcnt, hsub⟩ hs ht hs' ht'
  · exact absurd (hrun.symm.trans hsrun) htrun
  · exact absurd (hrun.trans htrun) hsrun
  · exact runsAgree_emit (.refused .pushByte) ⟨hrun, hacc, hcnt, hsub⟩

/-- The same bytes on both sides, one by one (R92). -/
theorem runsAgree_pushBytes {c : List Byte} {s t s' t' : State} (h : SameRecord s t)
    (hs : pushBytes runCandidate c s = .next s') (ht : pushBytes runCandidate c t = .next t')
    (hs' : s'.inFlight = none) (ht' : t'.inFlight = none) : RunsAgree s t s' t' := by
  induction c generalizing s t with
  | nil =>
    cases hs
    cases ht
    exact .of_trace_eq h rfl rfl
  | cons b c ih =>
    obtain ⟨u, hus, hu, hs⟩ := pushBytes_cons_next hs hs'
    obtain ⟨w, hwt, hw, ht⟩ := pushBytes_cons_next ht ht'
    have hbyte := runsAgree_pushByte h hus hwt hu hw
    exact hbyte.trans (ih hbyte.1 hs ht)

/-- Settles O59: the two machines stay side by side over the whole byte stream. -/
theorem subscribersCannotInfluenceTheDecoder : Obligations.SubscribersCannotInfluenceTheDecoder := by
  intro c s t s' t' h hs ht hs' ht'
  rw [execCandidate_eq] at hs ht
  exact runsAgree_pushBytes h hs ht hs' ht'

end Sys2Proof.Machine
end

section
/-! PROOFS of 44_control.md: START in each RUN state, input refused unless running, READ_REG of each number, and the
table of which operations are refused. -/

namespace Sys2Proof.Machine

/-! ## START (R170, R171) -/

section opStart
variable {s : State}

theorem opStart_open (h : s.run = .stopped) : opStart true s = emit .started { s with run := .running } := by
  simpa [h] using opStart_cases true s

theorem opStart_notOpen (h : s.run = .stopped) : opStart false s = emit .startFailed { s with run := .failed } := by
  simpa [h] using opStart_cases false s

theorem opStart_refused (o : Bool) (h : s.run ≠ .stopped) : opStart o s = emit (.refused .start) s := by
  simpa [h] using opStart_cases o s

end opStart

/-- Settles O38: START with the transport open, START with it not open, and START refused. -/
theorem startRunsOrFails : Obligations.StartRunsOrFails := fun _ =>
  ⟨fun h => ⟨congrArg Host.Outcome.next (opStart_open h), congrArg Host.Outcome.next (opStart_notOpen h)⟩,
    fun h o => congrArg Host.Outcome.next (opStart_refused o h)⟩

/-- Settles O39: PUSH_BYTE of the machine is that of the byte input, which refuses the byte. -/
theorem inputIsRefusedUnlessRunning : Obligations.InputIsRefusedUnlessRunning := fun b s hf hrun =>
  (runOp_pushByte b s).trans (pushByte_refused runCandidate b hf hrun)

/-! ## READ_REG (R173, R174) -/

section opReadReg
variable {n : Nat} {s : State} {v : Bits32}

/-- There are three status registers (R29). -/
theorem statusReg_eq_none_iff : statusReg s n = none ↔ 2 < n := by
  match n with
  | 0 | 1 | 2 => simp [statusReg]
  | n + 3 => simp [statusReg]

/-- No status register shows the latest answer. -/
theorem statusReg_withAnswer (a : Option Answer) (s : State) (n : Nat) :
    statusReg { s with answer := a } n = statusReg s n := rfl

theorem opReadReg_of_some (h : statusReg s n = some v) : opReadReg n s = { s with answer := some (.value v) } := by
  rw [opReadReg, h]

theorem opReadReg_of_lt (h : 2 < n) :
    opReadReg n s = { emit (.refused .readReg) s with answer := some .nothing } := by
  rw [opReadReg, statusReg_eq_none_iff.2 h]

theorem opReadReg_of_le (h : n ≤ 2) :
    ∃ v, statusReg s n = some v ∧ opReadReg n s = { s with answer := some (.value v) } := by
  obtain ⟨v, hv⟩ := Option.ne_none_iff_exists'.1 (mt statusReg_eq_none_iff.1 (Nat.not_lt.2 h))
  exact ⟨v, hv, opReadReg_of_some hv⟩

end opReadReg

/-- Settles O41: the second read finds the register as the first left it, for a read writes the answer alone. -/
theorem readRegHasNoSideEffect : Obligations.ReadRegHasNoSideEffect := by
  intro s
  refine ⟨fun n hn => congrArg Host.Outcome.next (opReadReg_of_lt hn),
    congrArg Host.Outcome.next (opReadReg_of_some rfl), congrArg Host.Outcome.next (opReadReg_of_some rfl),
    congrArg Host.Outcome.next (opReadReg_of_some rfl), fun n t hn h => ?_⟩
  obtain ⟨v, hv, hread⟩ := opReadReg_of_le (s := s) hn
  cases h
  rw [hread]
  exact congrArg Host.Outcome.next (opReadReg_of_some ((statusReg_withAnswer _ s n).trans hv))

/-! ## Refusals among the events appended (R175) -/

/-- Whether an event is the refusal of an operation (R188). -/
def Event.isRefused : Event → Bool
  | .refused _ => true
  | .frameOk _ _ => false
  | .deliver _ _ _ _ => false
  | .subFault _ _ _ => false
  | .crcDrop _ _ _ => false
  | .subReject _ _ _ => false
  | .started => false
  | .startFailed => false
  | .reset => false

/-- Events were appended to the trace, and `r` says whether a refusal is among them. -/
def Refuses (r : Bool) (s t : State) : Prop := ∃ es, t.trace = s.trace ++ es ∧ es.any Event.isRefused = r

theorem any_isRefused_iff (es : List Event) : es.any Event.isRefused = true ↔ ∃ o, Event.refused o ∈ es := by
  rw [List.any_eq_true]
  constructor
  · rintro ⟨e, he, hr⟩
    cases e with
    | refused o => exact ⟨o, he⟩
    | _ => cases hr
  · rintro ⟨o, ho⟩
    exact ⟨_, ho, rfl⟩

theorem Refuses.of_trace_eq {s t : State} (h : t.trace = s.trace) : Refuses false s t :=
  ⟨[], by rw [h, List.append_nil], rfl⟩

theorem Refuses.trans {r r' : Bool} {s t u : State} (h : Refuses r s t) (h' : Refuses r' t u) :
    Refuses (r || r') s u := by
  obtain ⟨es, ht, rfl⟩ := h
  obtain ⟨es', ht', rfl⟩ := h'
  exact ⟨es ++ es', by rw [ht', ht, List.append_assoc], List.any_append⟩

theorem refuses_emit (e : Event) (s : State) : Refuses e.isRefused s (emit e s) := ⟨[e], rfl, Bool.or_false _⟩

/-! ## No candidate is refused, and no byte while running (R90, R106) -/

theorem publish_refuses (k : Kind) (v : Value) (s : State) : Refuses false s (publish k v s) := by
  obtain ⟨es, htrace, hes⟩ := publish_trace k v s
  refine ⟨_, htrace, List.any_eq_false.2 ?_⟩
  rintro e (_ | ⟨_, he⟩)
  · exact Bool.false_ne_true
  · obtain ⟨j, id, rfl⟩ | ⟨j, id, rfl⟩ := hes e he <;> exact Bool.false_ne_true

theorem runCandidate_refuses {k : Kind} {F : List Byte} {s t : State} (h : runCandidate k F s = .next t) :
    Refuses false s t := by
  obtain ⟨G, v, hcheck⟩ := runCandidate_is_check k F s
  obtain ⟨-, rfl | ⟨r, c, rfl⟩⟩ := checkCandidate_cases (hcheck ▸ h)
  · exact publish_refuses k v s
  · exact ⟨[.crcDrop k r c], rfl, rfl⟩

/-- A transitive relation that each candidate and each change of the accumulator alone meets holds over a whole drain
(R110). -/
theorem drainFuel_rel {run : Executor} (R : State → State → Prop) (trans : ∀ {s t u}, R s t → R t u → R s u)
    (setAcc : ∀ s A, R s { s with acc := A }) (candidate : ∀ {k F s t}, run k F s = .next t → R s t)
    {n : Nat} {s t : State} (h : drainFuel run n s = .next t) : R s t := by
  induction n generalizing s with
  | zero => cases h; exact setAcc t t.acc
  | succ n ih =>
    unfold drainFuel at h
    split at h
    case h_1 A _ => cases h; exact setAcc s A
    case h_2 rest _ =>
      split at h
      case h_1 u hu =>
        have hsu : R s u := trans (setAcc s rest) (candidate hu)
        split at h
        · cases h; exact hsu
        · exact trans hsu (ih h)
      case h_2 => cases h
      case h_3 => cases h

theorem drain_refuses {s t : State} (h : drain runCandidate s = .next t) : Refuses false s t :=
  drainFuel_rel (Refuses false) Refuses.trans (fun _ _ => .of_trace_eq rfl) runCandidate_refuses h

/-- A byte is refused unless the unit runs, and while it runs nothing is (R90, R172). -/
theorem pushByte_refuses {b : Byte} {s t : State} (h : pushByte runCandidate b s = .next t) :
    Refuses (s.run != .running) s t := by
  obtain ⟨-, ⟨hrun, hdrain⟩ | ⟨hrun, rfl⟩⟩ := pushByte_cases h
  · rw [hrun]
    have hbyte : Refuses false s { s with acc := s.acc ++ [b] } := .of_trace_eq rfl
    exact hbyte.trans (drain_refuses hdrain)
  · rw [bne_iff_ne.2 hrun]
    exact refuses_emit (.refused .pushByte) s

/-- From RUNNING, RUN stays and nothing is refused. -/
def Admits (s t : State) : Prop := s.run = .running → t.run = .running ∧ Refuses false s t

theorem Admits.of_eq {s t : State} (hrun : t.run = s.run) (htrace : t.trace = s.trace) : Admits s t :=
  fun h => ⟨hrun.trans h, .of_trace_eq htrace⟩

theorem Admits.trans {s t u : State} (h : Admits s t) (h' : Admits t u) : Admits s u := fun hs =>
  have ⟨ht, hst⟩ := h hs
  have ⟨hu, htu⟩ := h' ht
  ⟨hu, hst.trans htu⟩

theorem pushByte_admits {b : Byte} {s t : State} (h : pushByte runCandidate b s = .next t) : Admits s t := fun hrun =>
  ⟨(pushByte_receives h).run.trans hrun, by simpa [hrun] using pushByte_refuses h⟩

theorem pushBytes_admits {c : List Byte} {s t : State} (h : pushBytes runCandidate c s = .next t) : Admits s t :=
  pushBytes_rel Admits (fun _ => .of_eq rfl rfl) Admits.trans pushByte_admits
    (fun bs s => .of_eq (holdBack_run bs s) (holdBack_trace bs s)) h

/-- A chunk of at least one byte is refused unless the unit runs, byte by byte (R92). -/
theorem pushBytes_refuses {c : List Byte} {s t : State} (h : pushBytes runCandidate c s = .next t) :
    Refuses (s.run != .running && c != []) s t := by
  by_cases hrun : s.run = .running
  · rw [hrun]
    exact (pushBytes_admits h hrun).2
  · rw [bne_iff_ne.2 hrun, Bool.true_and]
    cases c with
    | nil => cases h; exact .of_trace_eq rfl
    | cons b c =>
      cases hf : s.inFlight with
      | some d => cases (pushBytes_cons_of_hung runCandidate b c hf).symm.trans h
      | none =>
        cases (pushBytes_refused runCandidate (b :: c) hf hrun).symm.trans h
        exact ⟨_, rfl, rfl⟩

/-! ## The table (R175) -/

theorem opStart_refuses (o : Bool) (s : State) : Refuses (s.run != .stopped) s (opStart o s) := by
  obtain ⟨hs, -, h⟩ | ⟨hs, -, h⟩ | ⟨hs, h⟩ := opStart_cases o s <;> rw [h]
  · rw [hs]
    exact refuses_emit .started { s with run := .running }
  · rw [hs]
    exact refuses_emit .startFailed { s with run := .failed }
  · rw [bne_iff_ne.2 hs]
    exact refuses_emit (.refused .start) s

theorem opSubscribe_refuses (kc : BitVec 2) (id : SubId) (s : State) : Refuses false s (opSubscribe kc id s) := by
  obtain ⟨why, h⟩ | ⟨k, -, -, h⟩ := opSubscribe_cases kc id s <;> rw [h]
  · exact refuses_emit (.subReject kc id why) s
  · exact .of_trace_eq rfl

theorem opReadReg_refuses (n : Nat) (s : State) : Refuses (decide (2 < n)) s (opReadReg n s) := by
  by_cases hn : 2 < n
  · rw [decide_eq_true hn, opReadReg_of_lt hn]
    exact refuses_emit (.refused .readReg) s
  · obtain ⟨v, -, h⟩ := opReadReg_of_le (s := s) (Nat.le_of_not_lt hn)
    rw [decide_eq_false hn, h]
    exact .of_trace_eq rfl

theorem opSetOutcome_refuses (id : SubId) (o : SubOutcome) (s : State) : Refuses false s (opSetOutcome id o s) := by
  obtain ⟨d, h⟩ := opSetOutcome_eq id o s
  rw [h]
  exact .of_trace_eq rfl

theorem runOp_refuses {op : HostOp} {s t : State} (h : runOp op s = .next t) : Refuses (refusedIn op s.run) s t := by
  cases op with
  | pushByte b => exact pushByte_refuses (runOp_pushByte b s ▸ h)
  | pushChunk c => exact pushBytes_refuses (runOp_pushChunk c s ▸ h)
  | start o => cases h; exact opStart_refuses o s
  | subscribe kc id => cases h; exact opSubscribe_refuses kc id s
  | readReg n => cases h; exact opReadReg_refuses n s
  | reset => cases h; exact refuses_emit .reset s
  | setOutcome id o => cases h; exact opSetOutcome_refuses id o s
  | scriptDefaults => cases h; exact .of_trace_eq rfl

/-- Settles O42: each operation appends a refusal exactly where the table has one. -/
theorem admissionFollowsTheTable : Obligations.AdmissionFollowsTheTable := by
  intro op s t h
  obtain ⟨es, htrace, hany⟩ := runOp_refuses h
  exact ⟨es, htrace, by rw [← any_isRefused_iff, hany]⟩

end Sys2Proof.Machine
end

section
/-! PROOFS of 60_exceptions.md: the order of the operations of one cycle, and the codes of R181. -/

namespace Sys2Proof.Machine

/-! ## The operation taken from a cycle (R189) -/

/-- Only an empty cycle has nothing to take. -/
theorem eq_nil_of_selectOp_eq_none {ops : List HostOp} (h : selectOp ops = none) : ops = [] := by
  cases ops with
  | nil => rfl
  | cons op ops =>
    rw [selectOp] at h
    split at h
    · cases h
    · split at h <;> cases h

/-- What is taken from a cycle: its only operation, its first where no later one has a smaller rank, or else what is
taken from the rest. -/
theorem selectOp_cons_cases {a op : HostOp} {ops others : List HostOp}
    (h : selectOp (a :: ops) = some (op, others)) :
    (ops = [] ∧ op = a ∧ others = []) ∨
    (∃ best os, selectOp ops = some (best, os) ∧ a.rank ≤ best.rank ∧ op = a ∧ others = ops) ∨
    (∃ os, selectOp ops = some (op, os) ∧ op.rank < a.rank ∧ others = a :: os) := by
  rw [selectOp] at h
  split at h
  next hnone =>
    cases h
    exact .inl ⟨eq_nil_of_selectOp_eq_none hnone, rfl, rfl⟩
  next best os hsome =>
    split at h
    next hle =>
      cases h
      exact .inr (.inl ⟨best, os, hsome, hle, rfl, rfl⟩)
    next hlt =>
      cases h
      exact .inr (.inr ⟨os, hsome, Nat.lt_of_not_le hlt, rfl⟩)

/-- The operation taken and the others are the cycle's operations, each as often as in it. -/
theorem perm_of_selectOp {ops others : List HostOp} {op : HostOp} (h : selectOp ops = some (op, others)) :
    (op :: others).Perm ops := by
  induction ops generalizing op others with
  | nil => cases h
  | cons a ops ih =>
    obtain ⟨rfl, rfl, rfl⟩ | ⟨-, -, -, -, rfl, rfl⟩ | ⟨os, hsel, -, rfl⟩ := selectOp_cons_cases h
    · exact .refl _
    · exact .refl _
    · exact (List.Perm.swap a op os).trans ((ih hsel).cons a)

/-- The operation taken is of least rank in its cycle. -/
theorem rank_le_of_selectOp {ops others : List HostOp} {op : HostOp} (h : selectOp ops = some (op, others)) :
    ∀ o ∈ ops, op.rank ≤ o.rank := by
  induction ops generalizing op others with
  | nil => cases h
  | cons a ops ih =>
    rw [List.forall_mem_cons]
    obtain ⟨rfl, rfl, -⟩ | ⟨best, os, hsel, hle, rfl, -⟩ | ⟨os, hsel, hlt, -⟩ := selectOp_cons_cases h
    · exact ⟨le_rfl, List.forall_mem_nil _⟩
    · exact ⟨le_rfl, fun o ho => hle.trans (ih hsel o ho)⟩
    · exact ⟨hlt.le, ih hsel⟩

/-! ## A RESET and a byte in one cycle (R189, R200, R172) -/

/-- Of a byte and a RESET the RESET is taken, and the byte stays offered. -/
theorem step_pushByte_reset {b : Byte} {s : State} {rest : List (List HostOp)} (hf : s.inFlight = none)
    (hp : s.pending = [.pushByte b, .reset] :: rest) :
    step s = .next (opReset { s with pending := [.pushByte b] :: rest }) :=
  step_of_selectOp hf hp rfl

/-- A byte alone in its cycle is refused unless the unit runs, and is then no longer offered (log entry 9). -/
theorem step_pushByte_refused {b : Byte} {s : State} {rest : List (List HostOp)} (hf : s.inFlight = none)
    (hp : s.pending = [.pushByte b] :: rest) (hrun : s.run ≠ .running) :
    step s = .next (emit (.refused .pushByte) { s with pending := rest }) := by
  rw [step_single hf hp, runOp_pushByte]
  exact pushByte_refused (s := { s with pending := rest }) _ b hf hrun

/-- Settles O45: the selection by recursion on the cycle, and the two steps of a RESET with a byte. -/
theorem cycleOrderIsResetFirst : Obligations.CycleOrderIsResetFirst := by
  refine ⟨fun ops others op h => ⟨perm_of_selectOp h, rank_le_of_selectOp h⟩, ?_, ?_⟩
  · intro b o kc id n
    simp only [HostOp.rank]
    omega
  · intro b s rest hf hp
    have hstopped : (opReset { s with pending := [.pushByte b] :: rest }).run ≠ .running := by simp
    refine ⟨_, _, step_pushByte_reset hf hp, rfl, rfl, step_pushByte_refused hf rfl hstopped, ?_, rfl⟩
    simp

/-! ## Codes (R181, R185) -/

theorem fatal_iff (c : Condition) : c.fatal = true ↔ c = .transportOpenFail := by
  cases c <;> simp [Condition.fatal]

/-- Settles O60: each code read off the table, and the fatal condition by `fatal_iff`. -/
theorem codesAreThoseOfTheTable : Obligations.CodesAreThoseOfTheTable :=
  ⟨rfl, fun _ _ _ _ _ _ _ _ _ => rfl, rfl, rfl, rfl, fatal_iff⟩

end Sys2Proof.Machine
end

section
/-! PROOFS of 70_reset_and_hazards.md: what RESET leaves behind, the status registers after it, and the state at
power-on. -/

namespace Sys2Proof.Machine

/-! ## The status registers of an emptied record (R29, R173) -/

section emptied
variable {s : State}

/-- With nothing accumulated, register 1 shows RUN beside DEC IDLE and the DEC_KIND of no candidate. -/
theorem regStatus_of_acc_nil (h : s.acc = []) : regStatus s = 0x30 ||| BitVec.ofNat 32 s.run.code := by
  rw [regStatus, h, decOf_nil]
  rfl

theorem regSubCnt_of_subtab_empty (h : s.subtab = SubTab.empty) : regSubCnt s = 0 := by
  rw [regSubCnt, h]
  rfl

end emptied

/-! ## RESET (R200) -/

@[simp] theorem regCrcErr_opReset (s : State) : regCrcErr (opReset s) = 0 := opReset_crcErrCnt s

@[simp] theorem regStatus_opReset (s : State) : regStatus (opReset s) = 0x30 := by
  rw [regStatus_of_acc_nil (opReset_acc s), opReset_run]
  rfl

@[simp] theorem regSubCnt_opReset (s : State) : regSubCnt (opReset s) = 0 :=
  regSubCnt_of_subtab_empty (opReset_subtab s)

/-- Settles O43: RESET runs `opReset`, whose record is the cleared one, and each register is read after it. -/
theorem resetRestoresTheRecord : Obligations.ResetRestoresTheRecord := fun s =>
  ⟨opReset s, rfl, rfl, regCrcErr_opReset s, regStatus_opReset s, regSubCnt_opReset s⟩

/-! ## Power-on (R32, R202) -/

/-- Settles O44: the values of R32, with the banks by `bank_empty` and DEC by `decOf_nil`. -/
theorem powerOnState : Obligations.PowerOnState :=
  ⟨rfl, rfl, rfl, bank_empty, rfl, decOf_nil⟩

end Sys2Proof.Machine
end
